-- ==== Sys2Proof/Word.lean ====
section
/-! DEFINITION. The block's plain bit types: bytes of the two buffers and of the wire format, and the 16-, 32- and
64-bit values of the registers and header fields (spec/00_scope.md R8, spec/10_state.md R12 to R21). -/

namespace Sys2Proof

/-- A byte: 8 bits, unsigned 0 to 255 (R8). -/
abbrev Byte := BitVec 8

/-- A 16-bit value: a checksum (R19, R71). -/
abbrev Half := BitVec 16

/-- A 32-bit value: a register as the bus sees it, a command word (R32, R50). -/
abbrev Word := BitVec 32

/-- A 64-bit value: a sequence number (R16, R20). -/
abbrev DWord := BitVec 64

end Sys2Proof
end

