-- ==== Sys2Proof/Config.lean ====
section
/-! DEFINITION. What an implementation fixes (the four parameters of spec/00_scope.md R5), the block's fixed constants
(R7), and the free values: bytes the spec calls unspecified (spec/93_implementation_defined.md U1, U2). -/

namespace Sys2Proof

/-- The configuration parameters of R5. "They are not state: no command and no bus access changes them. A model takes
them as arguments." The model carries them in a field of State that no step changes (log entry 3). -/
structure Config where
  /-- `MAGIC`, the value `HDRPUT` writes in the header's magic field. -/
  magic : Word
  /-- `VERSION`, the value `HDRPUT` writes in the header's version field. -/
  version : Word
  /-- `MSG_MAX`, the size in bytes of the message buffer. -/
  msgMax : Nat
  /-- `PKT_MAX`, the size in bytes of the packet buffer. -/
  pktMax : Nat
deriving DecidableEq, Repr

namespace Config

/-- Test configuration `T1` of spec/95_test_vectors.md section 0. DESIGN CHOICE (log entry 4), unsafe for a claim that
rests on it: the configuration of `State.reset`; the spec gives no value for any parameter (U4, U5). -/
def t1 : Config := { magic := 0x01DE19CC#32, version := 0x00000001#32, msgMax := 64, pktMax := 66 }

/-- The FREE VALUE of byte `index` of a buffer whose bytes were last made unspecified by draw number `draw` (U1: "Each
byte is an unconstrained input of the launch state. It is stable"; U2: "A fresh draw for every byte of the buffer").
It has no body, so nothing can be proved of its value (log entries 5, 6). -/
opaque freeByte : (draw : Nat) → (index : Nat) → Byte

end Config

/-- `TERM_BYTE`, the reserved terminator byte (R7). -/
def termByte : Byte := 0x00#8

/-- `RUN_MAX`, most literal bytes in one run record (R7). -/
def runMax : Nat := 254

/-- `CODE_FULL`, the length byte of a run record with `RUN_MAX` literals (R7). -/
def codeFull : Nat := 255

/-- `CSUM_MOD`, the modulus of both checksum accumulators (R7). -/
def csumMod : Nat := 255

/-- `HDR_SIZE`, bytes of header (R7). -/
def hdrSize : Nat := 17

/-- `CSUM_SIZE`, bytes of checksum trailer (R7). -/
def csumSize : Nat := 2

/-- `MSG_MIN`, the minimum valid decoded message length (R7). -/
def msgMin : Nat := 19

end Sys2Proof
end

