-- ==== Sys2Proof/Syntax.lean ====
section
/-! DEFINITION. What the host can say to the block: the eleven commands of spec/opcode_table.json (spec/30_encoding.md
R51), the fields of a command word (R50), the registers of the register file (spec/20_memory.md R32), the bus events
(R33, R34) with the external reset (spec/70_reset_and_hazards.md R140), and the host script (R61, R62). -/

namespace Sys2Proof

/-- The block's commands, one constructor per row of the opcode map (R51). Every operand but `imm8` of `CSBYTE` is a
fixed, named register or buffer (R52). -/
inductive Instr where
  | csclr
  | csbyte (imm8 : Byte)
  | csmsg
  | encode
  | term
  | strip
  | decode
  | hdrput
  | finish
  | hdrget
  | trlget
deriving DecidableEq, Repr

/-- The fields of a command word in the one format `C32` (R50). -/
structure CommandFields where
  /-- Bits 7:0. -/
  op : BitVec 8
  /-- Bits 15:8. -/
  imm8 : BitVec 8
  /-- Bits 31:16, zero in every command. -/
  zero : BitVec 16
deriving DecidableEq, Repr

/-- The registers of the register file (R32). `csum`, `seqLo` and the like are bus views of state held elsewhere. -/
inductive Reg where
  | cmd
  | status
  | msgLen
  | pktLen
  | seqLo
  | seqHi
  | command
  | csum
  | rxCsum
  | hMagic
  | hVersion
  | hSeqLo
  | hSeqHi
  | hCmd
  | cfgMagic
  | cfgVersion
  | cfgMsgMax
  | cfgPktMax
deriving DecidableEq, Repr

/-- The access rights of R32: host may read and write, only read, only write. -/
inductive Access where
  | rw
  | ro
  | wo
deriving DecidableEq, Repr

/-- The two byte buffers (R12, R13). -/
inductive Buf where
  | msg
  | pkt
deriving DecidableEq, Repr

/-- What the outside does to the block, one indivisible event each (R39, R40): a bus read or write at byte offset `addr`
from the block's base, of `n` bytes, or the external reset (R140). A written value is `n` bytes: its low `8 * n` bits
are what the bus carries (log entry 10). -/
inductive BusEvent where
  | read (addr n : Nat)
  | write (addr n value : Nat)
  | externalReset
deriving DecidableEq, Repr

/-- The bus response (R33, R34): `OKAY` to a write, `OKAY` with the byte or the word read, or `ERROR`. -/
inductive Response where
  | okay
  | okayByte (value : Byte)
  | okayWord (value : Word)
  | error
deriving DecidableEq, Repr

/-- Statements of the host script (R61) and its pseudo-statements (R62). -/
inductive Stmt where
  /-- `WR reg, v` -/
  | wr (reg : Reg) (v : Word)
  /-- `RD reg` -/
  | rd (reg : Reg)
  /-- `WRB MSG[i], b` or `WRB PKT[i], b` -/
  | wrb (buf : Buf) (i : Nat) (b : Byte)
  /-- `RDB MSG[i]` or `RDB PKT[i]` -/
  | rdb (buf : Buf) (i : Nat)
  /-- A command mnemonic, with its immediate for `CSBYTE b`. -/
  | issue (i : Instr)
  /-- `CMDW w` -/
  | cmdw (w : Word)
  /-- `WR64 SEQ, v` -/
  | wr64Seq (v : DWord)
  /-- `LDMSG at i, [b0, ..., bk]` -/
  | ldmsg (i : Nat) (bytes : List Byte)
  /-- `LDPKT [b0, ..., bk]` -/
  | ldpkt (bytes : List Byte)
  /-- `RD64 H_SEQ` -/
  | rd64HSeq
deriving DecidableEq, Repr

end Sys2Proof
end

