-- ==== Sys2Proof/WellFormed.lean ====
section
/-! DEFINITION. The well-formedness checks: what R50 of spec/30_encoding.md asks of a command word's fields, what R5 and
R6 of spec/00_scope.md ask of a configuration, and that a written value fits the access that carries it. -/

namespace Sys2Proof

/-- The operation codes of R51. -/
def opcodes : List (BitVec 8) :=
  [0x01#8, 0x02#8, 0x03#8, 0x10#8, 0x11#8, 0x12#8, 0x13#8, 0x20#8, 0x21#8, 0x22#8, 0x23#8]

/-- R50: a word's fields are legal when bits 31:16 are zero, `op` is in the table, and `imm8` is zero but for `CSBYTE`. -/
def CommandFields.legal (f : CommandFields) : Bool :=
  f.zero == 0#16 && opcodes.contains f.op && (f.op == 0x02#8 || f.imm8 == 0#8)

/-- The constraints of R5 that always hold: a minimal message fits, each buffer fits its window. -/
def Config.legal (c : Config) : Bool :=
  decide (19 ≤ c.msgMax) && decide (c.msgMax ≤ 65536) && decide (1 ≤ c.pktMax) && decide (c.pktMax ≤ 65536)

/-- The premise `cfg_sized` of R6, which a claim takes or drops. -/
def Config.sized (c : Config) : Bool := decide (c.msgMax + c.msgMax / 254 + 2 ≤ c.pktMax)

/-- A bus event is well formed when the value it writes fits its `n` bytes (log entry 10). -/
def BusEvent.wellFormed : BusEvent → Bool
  | .read _ _ => true
  | .write _ n value => decide (value < 2 ^ (8 * n))
  | .externalReset => true

end Sys2Proof
end

