-- ==== Sys2Proof/Decode.lean ====
section
/-! DEFINITION. Encodings. The command word (spec/30_encoding.md R50 to R54): a decoder total on every 32-bit word,
rejecting by name, and the encoder. The register file's offsets and rights and the windows' bases (spec/20_memory.md
R31, R32), which are the host script's encodings (R61). -/

namespace Sys2Proof

/-- Why a word is no command (R50). All three execute alike, as `E_ILLEGAL` (R53). -/
inductive DecodeError where
  /-- A non-zero bit in 31:16. -/
  | zeroFieldSet
  /-- `op` outside the eleven of R51. -/
  | undefinedOp
  /-- A non-zero `imm8` with an `op` other than `CSBYTE`. -/
  | strayImmediate
deriving DecidableEq, Repr

/-- The fields of a word: `op = w[7:0]`, `imm8 = w[15:8]`, `zero = w[31:16]` (R50). -/
def commandFields (w : Word) : CommandFields :=
  { op := w.extractLsb' 0 8, imm8 := w.extractLsb' 8 8, zero := w.extractLsb' 16 16 }

/-- The word with given fields (R50). -/
def commandWord (f : CommandFields) : Word := f.zero ++ f.imm8 ++ f.op

/-- The command an `op` other than `CSBYTE`'s names (R51). -/
def plainCommand (op : BitVec 8) : Option Instr :=
  match op.toNat with
  | 0x01 => some .csclr
  | 0x03 => some .csmsg
  | 0x10 => some .encode
  | 0x11 => some .term
  | 0x12 => some .strip
  | 0x13 => some .decode
  | 0x20 => some .hdrput
  | 0x21 => some .finish
  | 0x22 => some .hdrget
  | 0x23 => some .trlget
  | _ => none

/-- R50 on a word's fields. -/
def decodeFields (f : CommandFields) : Except DecodeError Instr :=
  if f.zero ≠ 0#16 then .error .zeroFieldSet
  else if f.op = 0x02#8 then .ok (.csbyte f.imm8)
  else
    match plainCommand f.op with
    | none => .error .undefinedOp
    | some i => if f.imm8 ≠ 0#8 then .error .strayImmediate else .ok i

/-- R50: the command a 32-bit word is, or why it is none. -/
def decodeWord (w : Word) : Except DecodeError Instr := decodeFields (commandFields w)

/-- The operation code of each command (R51). -/
def Instr.opcode : Instr → BitVec 8
  | .csclr => 0x01#8
  | .csbyte _ => 0x02#8
  | .csmsg => 0x03#8
  | .encode => 0x10#8
  | .term => 0x11#8
  | .strip => 0x12#8
  | .decode => 0x13#8
  | .hdrput => 0x20#8
  | .finish => 0x21#8
  | .hdrget => 0x22#8
  | .trlget => 0x23#8

/-- The immediate field of each command: `imm8` for `CSBYTE`, zero for every other (R50, R52). -/
def Instr.immediate : Instr → BitVec 8
  | .csbyte imm8 => imm8
  | .csclr => 0#8
  | .csmsg => 0#8
  | .encode => 0#8
  | .term => 0#8
  | .strip => 0#8
  | .decode => 0#8
  | .hdrput => 0#8
  | .finish => 0#8
  | .hdrget => 0#8
  | .trlget => 0#8

/-- The fields a command is written with (R50). -/
def Instr.fields (i : Instr) : CommandFields := { op := i.opcode, imm8 := i.immediate, zero := 0#16 }

/-- A command is well formed when its fields are legal. The types already see to it (Laws/PerInstr.lean). -/
def Instr.wellFormed (i : Instr) : Bool := i.fields.legal

/-- The word of a command (R50, R51). -/
def encode (i : Instr) : Word := commandWord i.fields

/-- What the decoder reads from an instruction of the opcode table given as its bits: `nbits` bits of `w`, zeros above.
A command is one 32-bit bus value, bit 0 its least significant (R50, R54; spec/20_memory.md R37: "On the bus a register
is read and written only as a whole 32-bit word, so no byte order arises there"). -/
def decodeTableWord (nbits w : Nat) : Option Instr :=
  if w % 2 ^ nbits < 2 ^ 32 then
    match decodeWord (BitVec.ofNat 32 (w % 2 ^ nbits)) with
    | .ok i => some i
    | .error _ => none
  else none

/-- The offset of each register (R32). -/
def Reg.offset : Reg → Nat
  | .cmd => 0x00
  | .status => 0x04
  | .msgLen => 0x08
  | .pktLen => 0x0C
  | .seqLo => 0x10
  | .seqHi => 0x14
  | .command => 0x18
  | .csum => 0x1C
  | .rxCsum => 0x20
  | .hMagic => 0x24
  | .hVersion => 0x28
  | .hSeqLo => 0x2C
  | .hSeqHi => 0x30
  | .hCmd => 0x34
  | .cfgMagic => 0x40
  | .cfgVersion => 0x44
  | .cfgMsgMax => 0x48
  | .cfgPktMax => 0x4C

/-- The access rights of each register (R32). -/
def Reg.access : Reg → Access
  | .cmd => .wo
  | .status => .ro
  | .msgLen => .rw
  | .pktLen => .rw
  | .seqLo => .rw
  | .seqHi => .rw
  | .command => .rw
  | .csum => .ro
  | .rxCsum => .ro
  | .hMagic => .ro
  | .hVersion => .ro
  | .hSeqLo => .ro
  | .hSeqHi => .ro
  | .hCmd => .ro
  | .cfgMagic => .ro
  | .cfgVersion => .ro
  | .cfgMsgMax => .ro
  | .cfgPktMax => .ro

/-- The register at an offset (R32), none where the map has none: between the registers, at `0x38`, `0x3C`, and from
`0x50` on. Every offset it knows is a multiple of 4. -/
def regAt (addr : Nat) : Option Reg :=
  match addr with
  | 0x00 => some .cmd
  | 0x04 => some .status
  | 0x08 => some .msgLen
  | 0x0C => some .pktLen
  | 0x10 => some .seqLo
  | 0x14 => some .seqHi
  | 0x18 => some .command
  | 0x1C => some .csum
  | 0x20 => some .rxCsum
  | 0x24 => some .hMagic
  | 0x28 => some .hVersion
  | 0x2C => some .hSeqLo
  | 0x30 => some .hSeqHi
  | 0x34 => some .hCmd
  | 0x40 => some .cfgMagic
  | 0x44 => some .cfgVersion
  | 0x48 => some .cfgMsgMax
  | 0x4C => some .cfgPktMax
  | _ => none

/-- `MSG_BASE` (R31). -/
def msgBase : Nat := 0x10000

/-- `PKT_BASE` (R31). -/
def pktBase : Nat := 0x20000

/-- The base offset of a buffer's window (R31). -/
def Buf.base : Buf → Nat
  | .msg => msgBase
  | .pkt => pktBase

end Sys2Proof
end

