-- ==== Sys2Proof/Machine/State.lean ====
section
/-! DEFINITION. The block's state as plain data (spec/10_state.md R10 to R21), the reasons a step could stop, and the
state after reset (R25). -/

namespace Sys2Proof.Machine

/-- Bytes with a determined value, by index: indices strictly rising (`Memory.wf`, Machine/Ops.lean). An index that is
not listed has NO determined value; no listed byte is ever equal to that, so equal contents are equal lists (log entry
7). -/
abbrev Memory := List Host.Cell

/-- A byte buffer (R12, R13): its determined bytes, and the draw of free values that every other byte of it reads as
(spec/20_memory.md R44; spec/93_implementation_defined.md U1, U2). -/
structure Buffer where
  /-- The bytes a bus write or a command has written since the buffer was last made unspecified. -/
  cells : Memory
  /-- MODEL'S OWN: which draw of `Config.freeByte` the unlisted bytes come from (log entry 5). -/
  draw : Nat
deriving DecidableEq, Repr

/-- The whole state: the tuple of R10, and the model's own fields (`cfg`, `draws`, `events`, `response`). -/
structure State where
  /-- MODEL'S OWN: the configuration, an argument of the model (spec/00_scope.md R5; log entry 3). -/
  cfg : Config
  /-- `MSG`, the message buffer (R12). -/
  msg : Buffer
  /-- `PKT`, the packet buffer (R13). -/
  pkt : Buffer
  /-- `MSG_LEN` (R14). -/
  msgLen : Nat
  /-- `PKT_LEN` (R15). -/
  pktLen : Nat
  /-- `SEQ` (R16). -/
  seq : DWord
  /-- `COMMAND` (R17). -/
  command : Byte
  /-- `S1` (R18). -/
  s1 : Byte
  /-- `S2` (R18). -/
  s2 : Byte
  /-- `RX_CSUM` (R19). -/
  rxCsum : Half
  /-- `H_MAGIC` (R20). -/
  hMagic : Word
  /-- `H_VERSION` (R20). -/
  hVersion : Word
  /-- `H_SEQ` (R20). -/
  hSeq : DWord
  /-- `H_CMD` (R20). -/
  hCmd : Byte
  /-- `STATUS`: `ECODE` in bits 3:0, `EMPTY` in bit 4, bits 31:5 zero (R21). -/
  status : Word
  /-- MODEL'S OWN: the number of the next draw of free values (log entries 5, 6). -/
  draws : Nat
  /-- MODEL'S OWN: what the host has issued and the block has not yet answered, oldest first (log entry 1). -/
  events : List BusEvent
  /-- MODEL'S OWN: the bus response to the latest event, if it was a bus access (log entry 9). -/
  response : Option Response
deriving DecidableEq, Repr

/-- Why a step could stop with a fault: there is no way. Nobody raises one, which is safe: spec/60_exceptions.md R120,
"There is no third outcome: no trap, no hang, no stall", and every bus access gets a response (log entry 12). -/
inductive Fault where
deriving DecidableEq, Repr

/-- Why an instruction could be refused. -/
inductive Refusal where
  /-- Raised by `exec` for an instruction that has no meaning yet; no arm raises it now. Safe: the run stops. -/
  | notModelled (mnemonic : String)
deriving DecidableEq, Repr

/-- R25 with configuration `c`, the next free draws numbered from `draws` on, and the host about to issue `events`:
every register 0, every byte of both buffers unspecified (a free value), each buffer of a draw of its own. -/
def State.resetWith (c : Config) (draws : Nat) (events : List BusEvent) : State :=
  { cfg := c
    msg := { cells := [], draw := draws }
    pkt := { cells := [], draw := draws + 1 }
    msgLen := 0
    pktLen := 0
    seq := 0#64
    command := 0#8
    s1 := 0#8
    s2 := 0#8
    rxCsum := 0#16
    hMagic := 0#32
    hVersion := 0#32
    hSeq := 0#64
    hCmd := 0#8
    status := 0#32
    draws := draws + 2
    events := events
    response := none }

/-- The machine right after reset (R25), with the host having issued nothing, in configuration `T1` (DESIGN CHOICE, log
entries 1, 4, 5). -/
def State.reset : State := State.resetWith Config.t1 0 []

end Sys2Proof.Machine
end

