-- ==== Sys2Proof/Machine/Flags.lean ====
section
/-! DEFINITION. `STATUS`, the block's only flag register (spec/10_state.md R21): its fields, the error codes
(spec/60_exceptions.md R121) and the word every command leaves in it (R123). -/

namespace Sys2Proof.Machine

/-- The six command errors (R121). -/
inductive CmdError where
  | illegal
  | noSpace
  | trunc
  | zeroCode
  | short
  | noTerm
deriving DecidableEq, Repr

/-- The code of each error, the value of `STATUS.ECODE` (R121). -/
def CmdError.code : CmdError → BitVec 4
  | .illegal => 1#4
  | .noSpace => 2#4
  | .trunc => 3#4
  | .zeroCode => 4#4
  | .short => 5#4
  | .noTerm => 6#4

/-- `ECODE`: 0 on success, else the code of the error (R21, R121). -/
def outcomeCode : Option CmdError → BitVec 4
  | none => 0#4
  | some e => e.code

/-- The whole of `STATUS` as a command leaves it: `ECODE`, `EMPTY`, bits 31:5 zero (R123). -/
def statusWord (outcome : Option CmdError) (empty : Bool) : Word :=
  0#27 ++ BitVec.ofBool empty ++ outcomeCode outcome

/-- `STATUS.ECODE`, bits 3:0 (R21). -/
def State.ecode (s : State) : BitVec 4 := s.status.extractLsb' 0 4

/-- `STATUS.EMPTY`, bit 4 (R21). -/
def State.empty (s : State) : Bool := s.status.getLsbD 4

/-- `STATUS[31:5]`, which reads as zero (R21). -/
def State.statusReserved (s : State) : BitVec 27 := s.status.extractLsb' 5 27

end Sys2Proof.Machine
end

