-- ==== Sys2Proof/Machine/Ops.lean ====
section
/-! DEFINITION. The named operations over the buffers and the registers: reading and writing bytes, making a buffer
unspecified (spec/20_memory.md R44), the register updates of the commands, the end of a command, and the error outcome,
which is what this hardware has in place of taking an exception (spec/60_exceptions.md R123, R126). There is no return
operation to stand beside it: "nothing is needed" (R127). -/

namespace Sys2Proof.Machine

/-! ## Memories -/

/-- The canonical form: indices strictly rising. -/
abbrev Memory.wf (m : Memory) : Prop := m.Pairwise (fun x y => x.1 < y.1)

/-- No byte listed at or above `n`: nothing is held at an index the buffer does not have. -/
abbrev Memory.below (m : Memory) (n : Nat) : Prop := ∀ c ∈ m, c.1 < n

/-- The determined byte at an index, if it has one. -/
def Memory.byteAt : Memory → Nat → Option Byte
  | [], _ => none
  | (a, b) :: rest, i => if a = i then some b else Memory.byteAt rest i

/-- Write one byte, keeping the canonical form. -/
def Memory.store : Memory → Nat → Byte → Memory
  | [], i, v => [(i, v)]
  | (a, b) :: rest, i, v =>
    if i < a then (i, v) :: (a, b) :: rest
    else if i = a then (i, v) :: rest
    else (a, b) :: Memory.store rest i v

/-- Write a byte sequence from an index on. -/
def Memory.storeAll : Memory → Nat → List Byte → Memory
  | m, _, [] => m
  | m, i, b :: bs => Memory.storeAll (m.store i b) (i + 1) bs

/-! ## Buffers -/

/-- Byte `i` of a buffer: the byte last written there, else the free value of the buffer's draw (R44, U1, U2). -/
def Buffer.read (b : Buffer) (i : Nat) : Byte := (b.cells.byteAt i).getD (Config.freeByte b.draw i)

/-- Write byte `i`. -/
def Buffer.write (b : Buffer) (i : Nat) (v : Byte) : Buffer := { b with cells := b.cells.store i v }

/-- Write a byte sequence from index `i` on; every other byte keeps its value (U13). -/
def Buffer.writeAll (b : Buffer) (i : Nat) (bytes : List Byte) : Buffer :=
  { b with cells := b.cells.storeAll i bytes }

/-- A buffer of which every byte is unspecified, a fresh free value of draw `draw` (U1, U2). -/
def Buffer.unspecified (draw : Nat) : Buffer := { cells := [], draw := draw }

/-- `b[lo .. hi]`: the bytes at indices `lo` to `hi - 1` (spec/00_scope.md R8). -/
def Buffer.slice (b : Buffer) (lo hi : Nat) : List Byte := (List.range' lo (hi - lo)).map b.read

/-! ## Little-endian byte sequences (spec/00_scope.md R8) -/

/-- `LE16`, `LE32`, `LE64`: the `n` low bytes of a value, least significant first. -/
def leBytes {w : Nat} (n : Nat) (v : BitVec w) : List Byte := (List.range n).map fun k => v.extractLsb' (8 * k) 8

/-- The number a little-endian byte sequence denotes: `s[0] + 256 * s[1] + ...`. -/
def leNat : List Byte → Nat
  | [] => 0
  | b :: rest => b.toNat + 256 * leNat rest

/-- `unLE16`, `unLE32`, `unLE64`. -/
def unLE (w : Nat) (s : List Byte) : BitVec w := BitVec.ofNat w (leNat s)

/-! ## Register updates -/

/-- `STATUS <- v`, all of it. -/
def State.setStatus (s : State) (v : Word) : State := { s with status := v }

/-- `S1 <- p.1; S2 <- p.2`. -/
def State.setSums (s : State) (p : Byte × Byte) : State := { s with s1 := p.1, s2 := p.2 }

/-- `MSG_LEN <- n` with `MSG` set to `b`. -/
def State.setMsg (s : State) (b : Buffer) (n : Nat) : State := { s with msg := b, msgLen := n }

/-- `PKT_LEN <- n` with `PKT` set to `b`. -/
def State.setPkt (s : State) (b : Buffer) (n : Nat) : State := { s with pkt := b, pktLen := n }

/-- `RX_CSUM <- v`. -/
def State.setRxCsum (s : State) (v : Half) : State := { s with rxCsum := v }

/-- `H_MAGIC`, `H_VERSION`, `H_SEQ`, `H_CMD`, "all four together" (R20). -/
def State.setHeader (s : State) (magic version : Word) (seq : DWord) (cmd : Byte) : State :=
  { s with hMagic := magic, hVersion := version, hSeq := seq, hCmd := cmd }

/-- `MSG[i] <- unspecified` for every `i`, `MSG_LEN <- 0` (a failed `DECODE`, spec/41_framer.md R84). -/
def State.loseMsg (s : State) : State :=
  { s with msg := Buffer.unspecified s.draws, msgLen := 0, draws := s.draws + 1 }

/-- `PKT[i] <- unspecified` for every `i`, `PKT_LEN <- 0` (a failed `ENCODE`, spec/41_framer.md R82). -/
def State.losePkt (s : State) : State :=
  { s with pkt := Buffer.unspecified s.draws, pktLen := 0, draws := s.draws + 1 }

/-- Answer a bus access. -/
def State.respond (s : State) (r : Response) : State := { s with response := some r }

/-! ## The end of a command -/

/-- R123: "Every command, legal or not, successful or not, writes the whole of `STATUS` as its last act". -/
def State.endCommand (s : State) (outcome : Option CmdError) (empty : Bool) : State :=
  s.setStatus (statusWord outcome empty)

/-- A command reaches its end: `ECODE <- 0`, and `EMPTY` as given. -/
def succeed (s : State) (empty : Bool := false) : Host.Outcome State Fault Refusal :=
  .next (s.endCommand none empty)

/-- `raise E_X`: "it writes `STATUS` (rule R123) and the state of rule R122, and the command ends. It saves no state
anywhere, changes no mode, masks nothing, uses no stack, and transfers control nowhere" (R126). The state of R122 is what
the caller passes. -/
def raise (e : CmdError) (s : State) (empty : Bool := false) : Host.Outcome State Fault Refusal :=
  .next (s.endCommand (some e) empty)

/-- An illegal command word: `ECODE <- E_ILLEGAL`, `EMPTY <- 0`, "and nothing else changes" (spec/30_encoding.md R53). -/
def illegalCommand (s : State) : Host.Outcome State Fault Refusal := raise .illegal s

/-- The external reset (spec/70_reset_and_hazards.md R140): every register as R25 says, both buffers unspecified, each by
a fresh draw. What the host has issued beyond the reset is the host's and stays (log entry 13). -/
def State.externalReset (s : State) : State := State.resetWith s.cfg s.draws s.events

end Sys2Proof.Machine
end

