-- ==== Sys2Proof/Machine/Operands.lean ====
section
/-! DEFINITION. The operands. A command's operands are the immediate of `CSBYTE` (in its constructor) and fixed
registers and buffers (spec/30_encoding.md R52); the host's are registers and window bytes at bus offsets
(spec/20_memory.md R31 to R35). -/

namespace Sys2Proof.Machine

/-! ## What the commands read -/

/-- `MSG[0 .. MSG_LEN]`. -/
def State.message (s : State) : List Byte := s.msg.slice 0 s.msgLen

/-- `PKT[0 .. PKT_LEN]`. -/
def State.packet (s : State) : List Byte := s.pkt.slice 0 s.pktLen

/-- `(S1, S2)`. -/
def State.sums (s : State) : Byte × Byte := (s.s1, s.s2)

/-- `(s2 << 8) | s1` (spec/10_state.md R18). -/
def csumOf (p : Byte × Byte) : Half := (p.2.zeroExtend 16 <<< 8) ||| p.1.zeroExtend 16

/-- `CSUM`, as 16 bits (R18). -/
def State.csum (s : State) : Half := csumOf s.sums

/-! ## What the host reads and writes -/

/-- The "value read" of each readable register (R32), none for `CMD`. -/
def State.readReg (s : State) : Reg → Option Word
  | .cmd => none
  | .status => some s.status
  | .msgLen => some (BitVec.ofNat 32 s.msgLen)
  | .pktLen => some (BitVec.ofNat 32 s.pktLen)
  | .seqLo => some (s.seq.extractLsb' 0 32)
  | .seqHi => some (s.seq.extractLsb' 32 32)
  | .command => some (s.command.zeroExtend 32)
  | .csum => some (s.csum.zeroExtend 32)
  | .rxCsum => some (s.rxCsum.zeroExtend 32)
  | .hMagic => some s.hMagic
  | .hVersion => some s.hVersion
  | .hSeqLo => some (s.hSeq.extractLsb' 0 32)
  | .hSeqHi => some (s.hSeq.extractLsb' 32 32)
  | .hCmd => some (s.hCmd.zeroExtend 32)
  | .cfgMagic => some s.cfg.magic
  | .cfgVersion => some s.cfg.version
  | .cfgMsgMax => some (BitVec.ofNat 32 s.cfg.msgMax)
  | .cfgPktMax => some (BitVec.ofNat 32 s.cfg.pktMax)

/-- `R <- v` for a host-writable register and a legal value (R32, R35); none where the right or the value is not there.
`CMD` stores nothing and is no case of this (R22). -/
def State.writeReg (s : State) (r : Reg) (v : Word) : Option State :=
  match r with
  | .msgLen => if v.toNat ≤ s.cfg.msgMax then some { s with msgLen := v.toNat } else none
  | .pktLen => if v.toNat ≤ s.cfg.pktMax then some { s with pktLen := v.toNat } else none
  | .seqLo => some { s with seq := s.seq.extractLsb' 32 32 ++ v }
  | .seqHi => some { s with seq := v ++ s.seq.extractLsb' 0 32 }
  | .command => if v.toNat ≤ 255 then some { s with command := v.setWidth 8 } else none
  | .cmd => none
  | .status => none
  | .csum => none
  | .rxCsum => none
  | .hMagic => none
  | .hVersion => none
  | .hSeqLo => none
  | .hSeqHi => none
  | .hCmd => none
  | .cfgMagic => none
  | .cfgVersion => none
  | .cfgMsgMax => none
  | .cfgPktMax => none

/-- The buffer byte a bus offset reaches through a window, if any (R31). -/
def State.windowAt (s : State) (addr : Nat) : Option (Buf × Nat) :=
  if msgBase ≤ addr ∧ addr < msgBase + s.cfg.msgMax then some (.msg, addr - msgBase)
  else if pktBase ≤ addr ∧ addr < pktBase + s.cfg.pktMax then some (.pkt, addr - pktBase)
  else none

/-- A buffer of the state. -/
def State.buffer (s : State) : Buf → Buffer
  | .msg => s.msg
  | .pkt => s.pkt

/-- The size of a buffer (R12, R13). -/
def bufferSize (c : Config) : Buf → Nat
  | .msg => c.msgMax
  | .pkt => c.pktMax

/-- A window write: "changes that one byte and nothing else" (R34). -/
def State.pokeByte (s : State) (b : Buf) (i : Nat) (v : Byte) : State :=
  match b with
  | .msg => { s with msg := s.msg.write i v }
  | .pkt => { s with pkt := s.pkt.write i v }

end Sys2Proof.Machine
end

