-- ==== Sys2Proof/Machine/Checksum.lean ====
section
/-! DEFINITION. The checksum commands `CSCLR`, `CSBYTE`, `CSMSG` and the functions they run (spec/40_checksum.md R70 to
R75): Fletcher-16 with both accumulators reduced modulo 255 after every byte. -/

namespace Sys2Proof.Machine

/-- R70: the byte step. "`s2'` uses the new `s1'`". -/
def flStep (p : Byte × Byte) (b : Byte) : Byte × Byte :=
  let s1 := (p.1.toNat + b.toNat) % csumMod
  let s2 := (p.2.toNat + s1) % csumMod
  (BitVec.ofNat 8 s1, BitVec.ofNat 8 s2)

/-- R71: the fold of the byte step over a sequence. -/
def flFold : Byte × Byte → List Byte → Byte × Byte
  | p, [] => p
  | p, b :: t => flFold (flStep p b) t

/-- R71: the checksum of a sequence, both accumulators starting at 0. -/
def flSums (s : List Byte) : Byte × Byte := flFold (0#8, 0#8) s

/-- R71: `fl16(s) = (s2 << 8) | s1`. -/
def fl16 (s : List Byte) : Half := csumOf (flSums s)

/-- R72: `CSCLR`. -/
def execCsclr (s : State) : Host.Outcome State Fault Refusal :=
  succeed (s.setSums (0#8, 0#8))

/-- R73: `CSBYTE imm8`. -/
def execCsbyte (imm8 : Byte) (s : State) : Host.Outcome State Fault Refusal :=
  succeed (s.setSums (flStep s.sums imm8))

/-- R74: `CSMSG`. "The previous accumulator values are not used." -/
def execCsmsg (s : State) : Host.Outcome State Fault Refusal :=
  succeed (s.setSums (flSums s.message))

end Sys2Proof.Machine
end

