-- ==== Sys2Proof/Machine/Codec.lean ====
section
/-! DEFINITION. The message codec commands `HDRPUT`, `FINISH`, `HDRGET`, `TRLGET` and the functions they run
(spec/42_codec.md R100 to R109; wire layout spec/30_encoding.md R55 to R57). -/

namespace Sys2Proof.Machine

/-- The four fields of a header (R56). -/
structure Header where
  magic : Word
  version : Word
  seq : DWord
  cmd : Byte
deriving DecidableEq, Repr

/-- R100: `pack_hdr`, the 17 header bytes, little-endian, no padding. -/
def packHdr (h : Header) : List Byte := leBytes 4 h.magic ++ leBytes 4 h.version ++ leBytes 8 h.seq ++ [h.cmd]

/-- R101: `unpack_hdr`, the structural inverse. -/
def unpackHdr (h : List Byte) : Header :=
  { magic := unLE 32 (h.take 4)
    version := unLE 32 ((h.drop 4).take 4)
    seq := unLE 64 ((h.drop 8).take 8)
    cmd := unLE 8 ((h.drop 16).take 1) }

/-- The header `HDRPUT` writes: `MAGIC`, `VERSION` from the configuration, `SEQ` and `COMMAND` as given (R102). -/
def State.outHeader (s : State) : Header :=
  { magic := s.cfg.magic, version := s.cfg.version, seq := s.seq, cmd := s.command }

/-- R102: `HDRPUT`. -/
def execHdrput (s : State) : Host.Outcome State Fault Refusal :=
  succeed (s.setMsg (s.msg.writeAll 0 (packHdr s.outHeader)) hdrSize)

/-- R104: `FINISH`. "low byte of the u16 first". -/
def execFinish (s : State) : Host.Outcome State Fault Refusal :=
  if s.msgLen + csumSize > s.cfg.msgMax then raise .noSpace s
  else
    succeed
      ((s.setSums (flSums s.message)).setMsg
        (s.msg.writeAll s.msgLen [(flSums s.message).1, (flSums s.message).2]) (s.msgLen + csumSize))

/-- R105: `HDRGET`. "The test is on 19, not 17". -/
def execHdrget (s : State) : Host.Outcome State Fault Refusal :=
  if s.msgLen < msgMin then raise .short s
  else
    let f := unpackHdr (s.msg.slice 0 hdrSize)
    succeed (s.setHeader f.magic f.version f.seq f.cmd)

/-- R107: `TRLGET`. It does not compare the two checksums. -/
def execTrlget (s : State) : Host.Outcome State Fault Refusal :=
  if s.msgLen < msgMin then raise .short s
  else
    succeed
      ((s.setRxCsum (unLE 16 (s.msg.slice (s.msgLen - csumSize) s.msgLen))).setSums
        (flSums (s.msg.slice 0 (s.msgLen - csumSize))))

end Sys2Proof.Machine
end

