-- ==== Sys2Proof/Machine/Framer.lean ====
section
/-! DEFINITION. The framer commands `ENCODE`, `TERM`, `STRIP`, `DECODE` and the functions they run (spec/41_framer.md R80
to R91): COBS-style run records. -/

namespace Sys2Proof.Machine

/-- A closed run record: the length byte, `len(run) + 1`, in front of the run's literals (R59, R81). -/
def runRecord (run : List Byte) : List Byte := BitVec.ofNat 8 (run.length + 1) :: run

/-- R81 from inside the scan: what the encoder still puts out when `run` is the open run and the argument is the rest of
the input. The three places that close a run are, in order: end of input, a zero met, the run at 254 bytes. -/
def cobsEncFrom (run : List Byte) : List Byte → List Byte
  | [] => runRecord run
  | b :: rest =>
    if b = termByte then runRecord run ++ cobsEncFrom [] rest
    else if run.length + 1 = runMax then runRecord (run ++ [b]) ++ cobsEncFrom [] rest
    else cobsEncFrom (run ++ [b]) rest

/-- R81: `cobs_enc(s)`, from an empty open run. -/
def cobsEnc (s : List Byte) : List Byte := cobsEncFrom [] s

/-- R83 from inside the scan: `rest` is the input from the current length byte on (`s[i .. L]`), `out` the output so far,
`cap` the room. A record takes at least its length byte, so `fuel` at or above the length of `rest` is never used up
(Laws/Framer.lean); at fuel 0 no input is then left. On naturals, `i + code > L` is `code - 1 > len(rest) - 1`. -/
def cobsDecFrom (cap : Nat) : (fuel : Nat) → (rest out : List Byte) → Except CmdError (List Byte)
  | 0, _, out => .ok out
  | _ + 1, [], out => .ok out
  | fuel + 1, code :: tail, out =>
    if code.toNat = 0 then .error .zeroCode
    else if code.toNat > tail.length + 1 then .error .trunc
    else if out.length + (code.toNat - 1) > cap then .error .noSpace
    else if code.toNat ≠ codeFull ∧ tail.drop (code.toNat - 1) ≠ [] then
      if out.length + (code.toNat - 1) + 1 > cap then .error .noSpace
      else
        cobsDecFrom cap fuel (tail.drop (code.toNat - 1)) (out ++ tail.take (code.toNat - 1) ++ [termByte])
    else cobsDecFrom cap fuel (tail.drop (code.toNat - 1)) (out ++ tail.take (code.toNat - 1))

/-- R83: `cobs_dec(s, cap)`. -/
def cobsDec (s : List Byte) (cap : Nat) : Except CmdError (List Byte) := cobsDecFrom cap s.length s []

/-- The scan state of R81's equivalent form with indices: the output with reserved positions in it, the position of the
open run's length byte, and the open run's code. `out_pos` is the length of `out`. -/
abbrev IndexScan := List Byte × Nat × Nat

/-- One input byte of R81's form with indices. A reserved position is held by a zero byte until its code is written. -/
def indexStep (t : IndexScan) (b : Byte) : IndexScan :=
  match t with
  | (out, codePos, code) =>
    if b = termByte then (out.set codePos (BitVec.ofNat 8 code) ++ [0#8], out.length, 1)
    else if code + 1 = codeFull then
      ((out ++ [b]).set codePos (BitVec.ofNat 8 codeFull) ++ [0#8], out.length + 1, 1)
    else (out ++ [b], codePos, code + 1)

/-- R81's equivalent form with indices, "which is how the source's software and a hardware scanner would do it": position
0 is reserved for the first length byte; at the end the open run's code is written. -/
def cobsEncIndexed (s : List Byte) : List Byte :=
  match s.foldl indexStep ([0#8], 0, 1) with
  | (out, codePos, code) => out.set codePos (BitVec.ofNat 8 code)

/-- R82: `ENCODE`. -/
def execEncode (s : State) : Host.Outcome State Fault Refusal :=
  if (cobsEnc s.message).length > s.cfg.pktMax then raise .noSpace s.losePkt
  else succeed (s.setPkt (s.pkt.writeAll 0 (cobsEnc s.message)) (cobsEnc s.message).length)

/-- R88: `TERM`. -/
def execTerm (s : State) : Host.Outcome State Fault Refusal :=
  if s.pktLen ≥ s.cfg.pktMax then raise .noSpace s
  else succeed (s.setPkt (s.pkt.write s.pktLen termByte) (s.pktLen + 1))

/-- R89: `STRIP`. "PKT bytes are not modified." -/
def execStrip (s : State) : Host.Outcome State Fault Refusal :=
  if s.pktLen = 0 then raise .noTerm s
  else if s.pkt.read (s.pktLen - 1) ≠ termByte then raise .noTerm s
  else succeed (s.setPkt s.pkt (s.pktLen - 1))

/-- R84: `DECODE`. `STATUS.EMPTY <- 1` if `PKT_LEN = 0` when the command starts, else 0. -/
def execDecode (s : State) : Host.Outcome State Fault Refusal :=
  match cobsDec s.packet s.cfg.msgMax with
  | .error e => raise e s.loseMsg (empty := decide (s.pktLen = 0))
  | .ok d => succeed (s.setMsg (s.msg.writeAll 0 d) d.length) (empty := decide (s.pktLen = 0))

end Sys2Proof.Machine
end

