-- ==== Sys2Proof/Machine/Dispatch.lean ====
section
/-! DEFINITION. One arm per command of the opcode map (spec/30_encoding.md R51). -/

namespace Sys2Proof.Machine

def exec (i : Instr) (s : State) : Host.Outcome State Fault Refusal :=
  match i with
  -- spec/40_checksum.md
  | .csclr => Sys2Proof.Machine.execCsclr s
  | .csbyte imm8 => Sys2Proof.Machine.execCsbyte imm8 s
  | .csmsg => Sys2Proof.Machine.execCsmsg s
  -- spec/41_framer.md
  | .encode => Sys2Proof.Machine.execEncode s
  | .term => Sys2Proof.Machine.execTerm s
  | .strip => Sys2Proof.Machine.execStrip s
  | .decode => Sys2Proof.Machine.execDecode s
  -- spec/42_codec.md
  | .hdrput => Sys2Proof.Machine.execHdrput s
  | .finish => Sys2Proof.Machine.execFinish s
  | .hdrget => Sys2Proof.Machine.execHdrget s
  | .trlget => Sys2Proof.Machine.execTrlget s

end Sys2Proof.Machine
end

