-- ==== Sys2Proof/Machine/Bus.lean ====
section
/-! DEFINITION. The host port: bus reads and bus writes with their responses (spec/20_memory.md R33 to R36), the command
register (spec/10_state.md R22), and the external reset (spec/70_reset_and_hazards.md R140), one event at a time. -/

namespace Sys2Proof.Machine

/-- R33: `MemRead(addr, n)`. The response alone: a read "never changes any state". -/
def memRead (s : State) (addr n : Nat) : Response :=
  if n = 4 then
    match regAt addr with
    | some r =>
      match s.readReg r with
      | some v => .okayWord v
      | none => .error
    | none => .error
  else if n = 1 then
    match s.windowAt addr with
    | some (b, i) => .okayByte ((s.buffer b).read i)
    | none => .error
  else .error

/-- R22: decode the word and execute it to its end; an illegal word executes too (R53). -/
def runCommandWord (w : Word) (s : State) : Host.Outcome State Fault Refusal :=
  match decodeWord w with
  | .ok i => exec i s
  | .error _ => illegalCommand s

/-- The bus answers once the command has ended: the response to a `CMD` write "is always `OKAY`" (R22). -/
def respondOkay : Host.Outcome State Fault Refusal → Host.Outcome State Fault Refusal
  | .next s => .next (s.respond .okay)
  | .fault f => .fault f
  | .refused r => .refused r

/-- R34: a 4-byte write that is not one to `CMD`. -/
def memWriteReg (s : State) (r : Reg) (v : Word) : State :=
  match s.writeReg r v with
  | some t => t.respond .okay
  | none => s.respond .error

/-- R34: a 1-byte write. -/
def memWriteWindow (s : State) (addr : Nat) (v : Byte) : State :=
  match s.windowAt addr with
  | some (b, i) => (s.pokeByte b i v).respond .okay
  | none => s.respond .error

/-- R34: `MemWrite(addr, n, v)`. The bus carries the low `8 * n` bits of `v` (log entry 10). -/
def memWrite (s : State) (addr n v : Nat) : Host.Outcome State Fault Refusal :=
  if n = 4 then
    match regAt addr with
    | some .cmd => respondOkay (runCommandWord (BitVec.ofNat 32 v) s)
    | some r => .next (memWriteReg s r (BitVec.ofNat 32 v))
    | none => .next (s.respond .error)
  else if n = 1 then .next (memWriteWindow s addr (BitVec.ofNat 8 v))
  else .next (s.respond .error)

/-- One event of the outside. -/
def runEvent (s : State) : BusEvent → Host.Outcome State Fault Refusal
  | .read addr n => .next (s.respond (memRead s addr n))
  | .write addr n v => memWrite s addr n v
  | .externalReset => .next s.externalReset

/-- The event by which the host issues a command word: `MemWrite(0x00, 4, w)` (R22, spec/30_encoding.md R61). -/
def commandEvent (w : Nat) : BusEvent := .write (Reg.offset .cmd) 4 w

/-- One step: the oldest event the host has issued is taken and answered; with none issued the block waits, unchanged (log
entries 1, 2). -/
def nextEvent (s : State) : Host.Outcome State Fault Refusal :=
  match s.events with
  | [] => .next s
  | e :: rest => runEvent { s with events := rest } e

end Sys2Proof.Machine
end

