-- ==== Sys2Proof/Machine/Step.lean ====
section
/-! DEFINITION. One step of the machine, and where the host puts the command word the next step runs. -/

namespace Sys2Proof.Machine

/-- One step: the next event of the outside (spec/20_memory.md R40), Machine/Bus.lean. -/
def step (s : State) : Host.Outcome State Fault Refusal := nextEvent s

/-- The host issues one command word (log entry 1): a write of it to `CMD` stands in front of whatever the host has
issued, so that the next step runs it. The word is the low `nbits` bits of `w`, zeros above; a command word has 32. -/
def State.withFetchWord (s : State) (nbits w : Nat) : State :=
  { s with events := commandEvent (w % 2 ^ nbits) :: s.events }

end Sys2Proof.Machine
end

