-- ==== Sys2Proof/Machine/Script.lean ====
section
/-! DEFINITION. The host script (spec/30_encoding.md R61, R62) as bus events and the values it reads, and the host's
two canonical sequences (spec/70_reset_and_hazards.md R143, R144) as scripts: "the reference use of the block, not extra behaviour of it". -/

namespace Sys2Proof.Machine

/-- `WR reg, v` (R61). -/
def writeRegEvent (r : Reg) (v : Word) : BusEvent := .write r.offset 4 v.toNat

/-- `RD reg` (R61). -/
def readRegEvent (r : Reg) : BusEvent := .read r.offset 4

/-- `WRB MSG[i], b` and `WRB PKT[i], b` (R61). -/
def writeByteEvent (buf : Buf) (i : Nat) (b : Byte) : BusEvent := .write (buf.base + i) 1 b.toNat

/-- `RDB MSG[i]` and `RDB PKT[i]` (R61). -/
def readByteEvent (buf : Buf) (i : Nat) : BusEvent := .read (buf.base + i) 1

/-- One byte write after another from index `i` on (R62). -/
def loadEvents (buf : Buf) : Nat → List Byte → List BusEvent
  | _, [] => []
  | i, b :: bs => writeByteEvent buf i b :: loadEvents buf (i + 1) bs

/-- The bus events of a statement (R61, R62). -/
def stmtEvents : Stmt → List BusEvent
  | .wr r v => [writeRegEvent r v]
  | .rd r => [readRegEvent r]
  | .wrb buf i b => [writeByteEvent buf i b]
  | .rdb buf i => [readByteEvent buf i]
  | .issue i => [commandEvent (encode i).toNat]
  | .cmdw w => [commandEvent w.toNat]
  | .wr64Seq v => [writeRegEvent .seqLo (v.extractLsb' 0 32), writeRegEvent .seqHi (v.extractLsb' 32 32)]
  | .ldmsg i bytes => loadEvents .msg i bytes
  | .ldpkt bytes => loadEvents .pkt 0 bytes ++ [writeRegEvent .pktLen (BitVec.ofNat 32 bytes.length)]
  | .rd64HSeq => [readRegEvent .hSeqLo, readRegEvent .hSeqHi]

/-- "value is `lo | (hi << 32)`" (R62, `RD64 H_SEQ`). -/
def joinHalves (lo hi : Word) : DWord := lo.zeroExtend 64 ||| (hi.zeroExtend 64 <<< 32)

/-- The value a reading statement has, from the responses to its bus events in their order (R61, R62): the number that a
comment after it asserts. A statement that reads nothing has none, nor has one with a refused read: "(ERROR, no value)"
(spec/20_memory.md R33). -/
def stmtValue : Stmt → List Response → Option DWord
  | .rd _, [.okayWord v] => some (v.zeroExtend 64)
  | .rdb _ _, [.okayByte b] => some (b.zeroExtend 64)
  | .rd64HSeq, [.okayWord lo, .okayWord hi] => some (joinHalves lo hi)
  | _, _ => none

/-- `n` steps, with the bus response that each has left, in order. -/
def runAnswers : Nat → State → Host.Outcome (State × List Response) Fault Refusal
  | 0, s => .next (s, [])
  | n + 1, s =>
    match step s with
    | .next t =>
      match runAnswers n t with
      | .next (u, answers) => .next (u, t.response.toList ++ answers)
      | .fault f => .fault f
      | .refused r => .refused r
    | .fault f => .fault f
    | .refused r => .refused r

/-- The host executes one statement ahead of whatever it has issued, as in `withFetchWord` (log entry 1): its bus events one
after another, and its value. -/
def runStmt (st : Stmt) (s : State) : Host.Outcome (State × Option DWord) Fault Refusal :=
  match runAnswers (stmtEvents st).length { s with events := stmtEvents st ++ s.events } with
  | .next (t, answers) => .next (t, stmtValue st answers)
  | .fault f => .fault f
  | .refused r => .refused r

/-- The bus events of a script, in order (R61). -/
def scriptEvents (script : List Stmt) : List BusEvent := script.flatMap stmtEvents

/-- R143: transmit a request with sequence number `seq`, command code `cmd` and payload `payload`. Reading the Packet out
afterwards is `readPacket`. -/
def transmitScript (seq : DWord) (cmd : Byte) (payload : List Byte) : List Stmt :=
  [ .wr64Seq seq
  , .wr .command (cmd.zeroExtend 32)
  , .issue .hdrput
  , .ldmsg hdrSize payload
  , .wr .msgLen (BitVec.ofNat 32 (hdrSize + payload.length))
  , .issue .finish
  , .issue .encode
  , .issue .term ]

/-- The reads at the end of R143, for a Packet of `n` bytes. -/
def readPacket (n : Nat) : List Stmt := .rd .pktLen :: (List.range n).map (Stmt.rdb .pkt)

/-- R144: take a Packet in, up to the point where the host first branches on `STATUS`. -/
def receiveScript (packet : List Byte) : List Stmt := [.ldpkt packet, .issue .strip, .issue .decode, .rd .status]

/-- R144 for a Packet that was neither a keep-alive nor malformed: the checksum and the header. -/
def openMessageScript : List Stmt := [.issue .trlget, .issue .hdrget]

/-- `HDRPUT` and the payload, then `FINISH` (spec/42_codec.md R108, R103). -/
def buildScript (payload : List Byte) : List Stmt :=
  [ .issue .hdrput
  , .ldmsg hdrSize payload
  , .wr .msgLen (BitVec.ofNat 32 (hdrSize + payload.length))
  , .issue .finish ]

/-- Through the framer and back (R108, second part). -/
def framingScript : List Stmt := [.issue .encode, .issue .term, .issue .strip, .issue .decode]

/-- The sequence of R108 with `framing` put between `FINISH` and `HDRGET`. -/
def codecScript (payload : List Byte) (framing : List Stmt) : List Stmt :=
  buildScript payload ++ (framing ++ [.issue .hdrget, .issue .trlget])

end Sys2Proof.Machine
end

