-- ==== Sys2Proof/Safety.lean ====
section
/-! DEFINITION. The terms the claims are stated in: the invariant (spec/10_state.md R24), what a run can reach, what an
event leaves unchanged, which words are illegal (spec/30_encoding.md R50) and which accesses are refused
(spec/20_memory.md R36), and a sequence of commands or events run one after another. -/

namespace Sys2Proof.Machine

/-- What every step keeps. The clauses on lengths, sums and `STATUS` are those of R24 that the types do not see to
(`COMMAND <= 255`, `RX_CSUM <= 0xFFFF`, `H_CMD <= 255` hold by width); those on `cells` say that the buffers are held in
canonical form and hold nothing at an index they do not have; those on draws say that unspecified bytes come from draws
already made, the two buffers' from different ones. -/
structure State.Inv (s : State) : Prop where
  /-- R5: the constraints on the configuration. -/
  cfgLegal : s.cfg.legal = true
  msgWf : s.msg.cells.wf
  pktWf : s.pkt.cells.wf
  msgBelow : s.msg.cells.below s.cfg.msgMax
  pktBelow : s.pkt.cells.below s.cfg.pktMax
  msgLenLe : s.msgLen ≤ s.cfg.msgMax
  pktLenLe : s.pktLen ≤ s.cfg.pktMax
  s1Le : s.s1.toNat ≤ 254
  s2Le : s.s2.toNat ≤ 254
  ecodeLe : s.ecode.toNat ≤ 6
  reservedZero : s.statusReserved = 0#27
  msgDrawLt : s.msg.draw < s.draws
  pktDrawLt : s.pkt.draw < s.draws
  drawsDiffer : s.msg.draw ≠ s.pkt.draw

/-- The states a run reaches: reset in a legal configuration, a step, and the host issuing more events at any time. -/
inductive Reachable : State → Prop
  | reset (c : Config) (legal : c.legal = true) : Reachable (State.resetWith c 0 [])
  | issue (s : State) (more : List BusEvent) (before : Reachable s) :
      Reachable { s with events := s.events ++ more }
  | step (s t : State) (before : Reachable s) (taken : Machine.step s = .next t) : Reachable t

/-! ## Frames: what stays -/

/-- Every byte of `MSG`, as it reads. -/
def KeepsMsgBytes (s t : State) : Prop := ∀ i, t.msg.read i = s.msg.read i

/-- Every byte of `PKT`, as it reads. -/
def KeepsPktBytes (s t : State) : Prop := ∀ i, t.pkt.read i = s.pkt.read i

/-- `MSG` and `MSG_LEN`. -/
def KeepsMsg (s t : State) : Prop := KeepsMsgBytes s t ∧ t.msgLen = s.msgLen

/-- `PKT` and `PKT_LEN`. -/
def KeepsPkt (s t : State) : Prop := KeepsPktBytes s t ∧ t.pktLen = s.pktLen

/-- The configuration, `SEQ` and `COMMAND`: what no command writes (R16, R17; spec/00_scope.md R5). -/
def KeepsOperands (s t : State) : Prop := t.cfg = s.cfg ∧ t.seq = s.seq ∧ t.command = s.command

/-- `S1` and `S2`. -/
def KeepsSums (s t : State) : Prop := t.s1 = s.s1 ∧ t.s2 = s.s2

/-- `RX_CSUM`. -/
def KeepsRxCsum (s t : State) : Prop := t.rxCsum = s.rxCsum

/-- `H_MAGIC`, `H_VERSION`, `H_SEQ`, `H_CMD`. -/
def KeepsHeader (s t : State) : Prop :=
  t.hMagic = s.hMagic ∧ t.hVersion = s.hVersion ∧ t.hSeq = s.hSeq ∧ t.hCmd = s.hCmd

/-- The host port: what is issued and the last response. -/
def KeepsPort (s t : State) : Prop := t.events = s.events ∧ t.response = s.response

/-- All the block's own state but `STATUS` (the tuple of R10), and the configuration. -/
def KeepsAllButStatus (s t : State) : Prop :=
  KeepsMsg s t ∧ KeepsPkt s t ∧ KeepsOperands s t ∧ KeepsSums s t ∧ KeepsRxCsum s t ∧ KeepsHeader s t

/-- All the block's own state, `STATUS` included, and the configuration. -/
def KeepsBlock (s t : State) : Prop := KeepsAllButStatus s t ∧ t.status = s.status

/-- `STATUS` after a successful command that is no `DECODE` of an empty frame: all of it zero (R123). -/
def EndsWell (t : State) : Prop := t.ecode = 0#4 ∧ t.empty = false ∧ t.statusReserved = 0#27

/-- `STATUS` after the error `e` (R121, R123). -/
def EndsIn (e : CmdError) (t : State) : Prop := t.ecode = e.code ∧ t.empty = false ∧ t.statusReserved = 0#27

/-- R121: the error the command `i` has in the state it starts in, by the exact conditions of the table; `none` is success
("the command's rule reached its end"). -/
def errorOf (i : Instr) (s : State) : Option CmdError :=
  match i with
  | .csclr => none
  | .csbyte _ => none
  | .csmsg => none
  | .hdrput => none
  | .encode => if s.cfg.pktMax < (cobsEnc s.message).length then some .noSpace else none
  | .term => if s.cfg.pktMax ≤ s.pktLen then some .noSpace else none
  | .strip => if s.pktLen = 0 ∨ s.pkt.read (s.pktLen - 1) ≠ 0x00#8 then some .noTerm else none
  | .decode =>
    match cobsDec s.packet s.cfg.msgMax with
    | .ok _ => none
    | .error e => some e
  | .finish => if s.cfg.msgMax < s.msgLen + 2 then some .noSpace else none
  | .hdrget => if s.msgLen < 19 then some .short else none
  | .trlget => if s.msgLen < 19 then some .short else none

/-- R53, R125 (a): the error of a command word: `E_ILLEGAL` whatever the state if it is no command's, else the command's. -/
def wordErrorOf (w : Word) (s : State) : Option CmdError :=
  match decodeWord w with
  | .ok i => errorOf i s
  | .error _ => some .illegal

/-! ## Words and accesses -/

/-- R50: "If `w[31:16] != 0`, or `op` is not in the table of rule R51, or `op != 0x02` and `imm8 != 0`, the word is
illegal". -/
def IllegalWord (w : Word) : Prop :=
  w.extractLsb' 16 16 ≠ 0#16 ∨ w.extractLsb' 0 8 ∉ opcodes ∨ (w.extractLsb' 0 8 ≠ 0x02#8 ∧ w.extractLsb' 8 8 ≠ 0#8)

/-- R35: the legal written values. -/
def LegalValue (s : State) (r : Reg) (v : Word) : Prop :=
  match r with
  | .msgLen => v.toNat ≤ s.cfg.msgMax
  | .pktLen => v.toNat ≤ s.cfg.pktMax
  | .command => v.toNat ≤ 255
  | _ => True

/-- An offset inside a window (R31). -/
def InWindow (s : State) (b : Buf) (addr : Nat) : Prop := b.base ≤ addr ∧ addr < b.base + bufferSize s.cfg b

/-- The accesses that R36 lists as refused. -/
inductive RefusedAccess (s : State) : BusEvent → Prop
  | readSize (addr n : Nat) (size : n ≠ 1 ∧ n ≠ 4) : RefusedAccess s (.read addr n)
  | writeSize (addr n v : Nat) (size : n ≠ 1 ∧ n ≠ 4) : RefusedAccess s (.write addr n v)
  | readMisaligned (addr : Nat) (misaligned : addr % 4 ≠ 0) : RefusedAccess s (.read addr 4)
  | writeMisaligned (addr v : Nat) (misaligned : addr % 4 ≠ 0) : RefusedAccess s (.write addr 4 v)
  | readWindowWord (b : Buf) (addr : Nat) (inside : InWindow s b addr) : RefusedAccess s (.read addr 4)
  | writeWindowWord (b : Buf) (addr v : Nat) (inside : InWindow s b addr) : RefusedAccess s (.write addr 4 v)
  | readRegByte (addr : Nat) (inside : addr < 0x50) : RefusedAccess s (.read addr 1)
  | writeRegByte (addr v : Nat) (inside : addr < 0x50) : RefusedAccess s (.write addr 1 v)
  | readCmd : RefusedAccess s (.read 0x00 4)
  | writeReadOnly (r : Reg) (v : Nat) (ro : r.access = .ro) : RefusedAccess s (.write r.offset 4 v)
  | illegalValue (r : Reg) (v : Nat) (rw : r.access = .rw) (fits : v < 2 ^ 32)
      (illegal : ¬ LegalValue s r (BitVec.ofNat 32 v)) : RefusedAccess s (.write r.offset 4 v)
  | readUnmapped (addr n : Nat) (noReg : ∀ r : Reg, addr / 4 * 4 ≠ r.offset)
      (noWindow : ∀ b, ¬ InWindow s b addr) : RefusedAccess s (.read addr n)
  | writeUnmapped (addr n v : Nat) (noReg : ∀ r : Reg, addr / 4 * 4 ≠ r.offset)
      (noWindow : ∀ b, ¬ InWindow s b addr) : RefusedAccess s (.write addr n v)

/-! ## Sequences -/

/-- Commands run one after another with nothing between them. -/
def runCommands : List Instr → State → Host.Outcome State Fault Refusal
  | [], s => .next s
  | i :: rest, s =>
    match exec i s with
    | .next t => runCommands rest t
    | .fault f => .fault f
    | .refused r => .refused r

/-- `n` steps. -/
def runSteps : Nat → State → Host.Outcome State Fault Refusal
  | 0, s => .next s
  | n + 1, s =>
    match step s with
    | .next t => runSteps n t
    | .fault f => .fault f
    | .refused r => .refused r

/-- The Message of a header and a payload: `Header ++ Payload ++ Checksum` (spec/30_encoding.md R55, R57). -/
def messageOf (h : Header) (payload : List Byte) : List Byte :=
  (packHdr h ++ payload) ++ [(flSums (packHdr h ++ payload)).1, (flSums (packHdr h ++ payload)).2]

/-- The Packet of a Message: "`cobs_enc(Message) ++ [0x00]`" (spec/30_encoding.md R58). -/
def packetOf (message : List Byte) : List Byte := cobsEnc message ++ [termByte]

end Sys2Proof.Machine
end

