-- ==== Sys2Proof/Certificates/Slice0/Obligations.lean ====
section
/-! DEFINITION. The statements about the model, each from a numbered rule of spec/ or derived from its sections. Statements
quantify over every state and every configuration; where a state no run reaches would break one, `State.Inv` or a clause
of it stands as the premise, and `StepKeepsInvariant` says that runs keep it. Bytes the spec leaves unspecified appear as
`Config.freeByte`, which has no value anything can rest on. -/

open Sys2Proof Sys2Proof.Machine

/-! ## Command words -/

/-- R50, R51: a word decodes to a command exactly when it is that command's word, and the table's numbering agrees. -/
def Obligations.WordsAndCommandsCorrespond : Prop :=
  (∀ (w : Word) (i : Instr), decodeWord w = .ok i ↔ w = encode i) ∧
  (∀ i : Instr, i.wellFormed = true ∧ decodeTableWord 32 (encode i).toNat = some i)

/-- R51, R52: each row's mask and match, and `imm8` is bits 15:8 of the word. -/
def Obligations.OpcodeMapMasksAndMatches : Prop :=
  ∀ w : Word,
    (decodeWord w = .ok .csclr ↔ w &&& 0xFFFFFFFF#32 = 0x00000001#32) ∧
    ((∃ b, decodeWord w = .ok (.csbyte b)) ↔ w &&& 0xFFFF00FF#32 = 0x00000002#32) ∧
    (∀ b, decodeWord w = .ok (.csbyte b) → b.toNat = w.toNat / 256 % 256) ∧
    (decodeWord w = .ok .csmsg ↔ w &&& 0xFFFFFFFF#32 = 0x00000003#32) ∧
    (decodeWord w = .ok .encode ↔ w &&& 0xFFFFFFFF#32 = 0x00000010#32) ∧
    (decodeWord w = .ok .term ↔ w &&& 0xFFFFFFFF#32 = 0x00000011#32) ∧
    (decodeWord w = .ok .strip ↔ w &&& 0xFFFFFFFF#32 = 0x00000012#32) ∧
    (decodeWord w = .ok .decode ↔ w &&& 0xFFFFFFFF#32 = 0x00000013#32) ∧
    (decodeWord w = .ok .hdrput ↔ w &&& 0xFFFFFFFF#32 = 0x00000020#32) ∧
    (decodeWord w = .ok .finish ↔ w &&& 0xFFFFFFFF#32 = 0x00000021#32) ∧
    (decodeWord w = .ok .hdrget ↔ w &&& 0xFFFFFFFF#32 = 0x00000022#32) ∧
    (decodeWord w = .ok .trlget ↔ w &&& 0xFFFFFFFF#32 = 0x00000023#32)

/-- The words of spec/95_test_vectors.md section 5.1 decode as listed. -/
def Obligations.SampleWordsDecode : Prop :=
  decodeWord 0x00000001#32 = .ok .csclr ∧ decodeWord 0x00004702#32 = .ok (.csbyte 0x47#8) ∧
  decodeWord 0x0000FF02#32 = .ok (.csbyte 0xFF#8) ∧ decodeWord 0x00000010#32 = .ok .encode ∧
  decodeWord 0x00000013#32 = .ok .decode ∧ decodeWord 0x00000021#32 = .ok .finish ∧
  decodeWord 0x00000000#32 = .error .undefinedOp ∧ decodeWord 0x00000101#32 = .error .strayImmediate ∧
  decodeWord 0x00012A02#32 = .error .zeroFieldSet

/-- R53: which words are illegal, that every other word is a command, and what an illegal word does. -/
def Obligations.IllegalWordsChangeOnlyStatus : Prop :=
  (∀ w : Word, IllegalWord w ↔ ¬ ∃ i, decodeWord w = .ok i) ∧ IllegalWord 0x00000000#32 ∧
  ∀ (s : State) (w : Nat) (rest : List BusEvent),
    s.events = .write 0x00 4 w :: rest → IllegalWord (BitVec.ofNat 32 w) →
    ∃ t, step s = .next t ∧ EndsIn .illegal t ∧ KeepsAllButStatus s t ∧ t.events = rest ∧ t.response = some .okay

/-! ## The step -/

/-- R22: the write of a command word to `CMD` runs that command to its end, and the response is `OKAY`. -/
def Obligations.StepRunsTheDecodedCommand : Prop :=
  (∀ (s : State) (w : Nat) (rest : List BusEvent) (i : Instr),
    s.events = .write 0x00 4 w :: rest → decodeWord (BitVec.ofNat 32 w) = .ok i →
    step s = respondOkay (exec i { s with events := rest })) ∧
  (∀ (s : State) (w : Nat) (i : Instr),
    decodeTableWord 32 w = some i → step (s.withFetchWord 32 w) = respondOkay (exec i s))

/-- The model's choice (log entry 2): with nothing issued a step leaves the whole state as it is. -/
def Obligations.IdleStepChangesNothing : Prop := ∀ s : State, s.events = [] → step s = .next s

/-- Every event is taken, and every bus access is answered (spec/93_implementation_defined.md, end of part 1). That the
events issued beyond an external reset stay (`t.events = rest` for that event) is the model's choice (log entry 13). -/
def Obligations.EveryEventIsAnswered : Prop :=
  ∀ (s : State) (e : BusEvent) (rest : List BusEvent), s.events = e :: rest →
    ∃ t, step s = .next t ∧ t.events = rest ∧ (e ≠ .externalReset → ∃ r, t.response = some r)

/-- R120: a command, legal or not, ends in success or in one of the six errors, and its bus write gets `OKAY`. -/
def Obligations.EveryCommandEndsInSuccessOrError : Prop :=
  (∀ e : CmdError, e.code ≠ 0#4) ∧
  (∀ (i : Instr) (s : State), ∃ t, exec i s = .next t ∧ (t.ecode = 0#4 ∨ ∃ e : CmdError, t.ecode = e.code)) ∧
  (∀ (w : Nat) (s : State), ∃ t, runCommandWord (BitVec.ofNat 32 w) s = .next t ∧
    (t.ecode = 0#4 ∨ ∃ e : CmdError, t.ecode = e.code) ∧ memWrite s 0x00 4 w = .next (t.respond .okay))

/-- R5: no command and no bus access changes the configuration. -/
def Obligations.ConfigurationNeverChanges : Prop := ∀ s t : State, step s = .next t → t.cfg = s.cfg

/-! ## Reset and the invariant -/

/-- R25: the state after reset, in every configuration. A byte of a buffer is a free value, not a value. -/
def Obligations.ResetState : Prop :=
  ∀ (c : Config) (d : Nat) (ev : List BusEvent) (s : State), s = State.resetWith c d ev →
    (∀ i, s.msg.read i = Config.freeByte d i) ∧ (∀ i, s.pkt.read i = Config.freeByte (d + 1) i) ∧
    s.msgLen = 0 ∧ s.pktLen = 0 ∧ s.seq = 0#64 ∧ s.readReg .seqLo = some 0#32 ∧ s.readReg .seqHi = some 0#32 ∧
    s.command = 0#8 ∧ s.s1 = 0#8 ∧ s.s2 = 0#8 ∧ s.readReg .csum = some 0#32 ∧ s.rxCsum = 0#16 ∧
    s.hMagic = 0#32 ∧ s.hVersion = 0#32 ∧ s.hSeq = 0#64 ∧ s.hCmd = 0#8 ∧
    s.status = 0#32 ∧ s.ecode = 0#4 ∧ s.empty = false ∧
    s.readReg .cfgMagic = some c.magic ∧ s.readReg .cfgVersion = some c.version ∧
    s.readReg .cfgMsgMax = some (BitVec.ofNat 32 c.msgMax) ∧ s.readReg .cfgPktMax = some (BitVec.ofNat 32 c.pktMax)

/-- The invariant holds after reset in every legal configuration, and in `State.reset` (whose configuration is the
model's choice, log entry 4). -/
def Obligations.ResetMeetsInvariant : Prop :=
  (∀ (c : Config) (d : Nat) (ev : List BusEvent), c.legal = true → (State.resetWith c d ev).Inv) ∧ State.reset.Inv

/-- Every step, whatever the event, keeps the invariant. -/
def Obligations.StepKeepsInvariant : Prop := ∀ s t : State, s.Inv → step s = .next t → t.Inv

/-- R24: the bounds of every reachable state. -/
def Obligations.ReachableStatesAreInBounds : Prop :=
  ∀ s : State, Reachable s →
    s.msgLen ≤ s.cfg.msgMax ∧ s.pktLen ≤ s.cfg.pktMax ∧ s.command.toNat ≤ 255 ∧ s.s1.toNat ≤ 254 ∧
    s.s2.toNat ≤ 254 ∧ s.rxCsum.toNat ≤ 0xFFFF ∧ s.hCmd.toNat ≤ 255 ∧ s.ecode.toNat ≤ 6 ∧ s.statusReserved = 0#27

/-- R140: the external reset, from any state: every register as R25 says, both buffers unspecified anew. That the events
issued beyond it stay is the model's choice (log entry 13). -/
def Obligations.ExternalResetClearsRegisters : Prop :=
  ∀ (s : State) (rest : List BusEvent), s.events = .externalReset :: rest →
    ∃ t, step s = .next t ∧ t.cfg = s.cfg ∧ t.events = rest ∧
      t.msgLen = 0 ∧ t.pktLen = 0 ∧ t.seq = 0#64 ∧ t.command = 0#8 ∧ t.s1 = 0#8 ∧ t.s2 = 0#8 ∧ t.rxCsum = 0#16 ∧
      t.hMagic = 0#32 ∧ t.hVersion = 0#32 ∧ t.hSeq = 0#64 ∧ t.hCmd = 0#8 ∧ t.status = 0#32 ∧
      (∀ i, t.msg.read i = Config.freeByte s.draws i) ∧ (∀ i, t.pkt.read i = Config.freeByte (s.draws + 1) i)

/-! ## The bus -/

/-- R33: what a bus read answers, and that it changes nothing. -/
def Obligations.BusReadAnswers : Prop :=
  ∀ (s : State) (addr n : Nat) (rest : List BusEvent), s.cfg.legal = true → s.events = .read addr n :: rest →
    ∃ resp, step s = .next { s with events := rest, response := some resp } ∧
      (∀ r : Reg, n = 4 → addr = r.offset → r.access ≠ .wo → ∃ v, s.readReg r = some v ∧ resp = .okayWord v) ∧
      (∀ b : Buf, n = 1 → InWindow s b addr → resp = .okayByte ((s.buffer b).read (addr - b.base))) ∧
      ((¬ ∃ r : Reg, n = 4 ∧ addr = r.offset ∧ r.access ≠ .wo) → (¬ ∃ b : Buf, n = 1 ∧ InWindow s b addr) →
        resp = .error)

/-- R32: the register file's offsets, rights and values read. -/
def Obligations.RegisterFileMap : Prop :=
  (∀ r : Reg, regAt r.offset = some r ∧ r.offset % 4 = 0) ∧
  (∀ (addr : Nat) (r : Reg), regAt addr = some r → addr = r.offset) ∧
  [Reg.cmd, .status, .msgLen, .pktLen, .seqLo, .seqHi, .command, .csum, .rxCsum, .hMagic, .hVersion, .hSeqLo, .hSeqHi,
    .hCmd, .cfgMagic, .cfgVersion, .cfgMsgMax, .cfgPktMax].map (fun r => (r.offset, r.access)) =
    [(0x00, .wo), (0x04, .ro), (0x08, .rw), (0x0C, .rw), (0x10, .rw), (0x14, .rw), (0x18, .rw), (0x1C, .ro),
      (0x20, .ro), (0x24, .ro), (0x28, .ro), (0x2C, .ro), (0x30, .ro), (0x34, .ro), (0x40, .ro), (0x44, .ro),
      (0x48, .ro), (0x4C, .ro)] ∧
  ∀ s : State, s.Inv →
    s.readReg .cmd = none ∧
    (s.readReg .status).map BitVec.toNat = some (s.ecode.toNat + 16 * s.empty.toNat) ∧
    (s.readReg .msgLen).map BitVec.toNat = some s.msgLen ∧
    (s.readReg .pktLen).map BitVec.toNat = some s.pktLen ∧
    (s.readReg .seqLo).map BitVec.toNat = some (s.seq.toNat % 2 ^ 32) ∧
    (s.readReg .seqHi).map BitVec.toNat = some (s.seq.toNat / 2 ^ 32) ∧
    (s.readReg .command).map BitVec.toNat = some s.command.toNat ∧
    (s.readReg .csum).map BitVec.toNat = some (256 * s.s2.toNat + s.s1.toNat) ∧
    (s.readReg .rxCsum).map BitVec.toNat = some s.rxCsum.toNat ∧
    s.readReg .hMagic = some s.hMagic ∧
    s.readReg .hVersion = some s.hVersion ∧
    (s.readReg .hSeqLo).map BitVec.toNat = some (s.hSeq.toNat % 2 ^ 32) ∧
    (s.readReg .hSeqHi).map BitVec.toNat = some (s.hSeq.toNat / 2 ^ 32) ∧
    (s.readReg .hCmd).map BitVec.toNat = some s.hCmd.toNat ∧
    s.readReg .cfgMagic = some s.cfg.magic ∧
    s.readReg .cfgVersion = some s.cfg.version ∧
    (s.readReg .cfgMsgMax).map BitVec.toNat = some s.cfg.msgMax ∧
    (s.readReg .cfgPktMax).map BitVec.toNat = some s.cfg.pktMax

/-- R35: a write of a legal value to a host-writable register stores it and nothing else; of any other value, nothing;
any word may be written to `CMD`. -/
def Obligations.RegisterWritesTakeLegalValues : Prop :=
  (∀ (s : State) (r : Reg) (v : Nat) (rest : List BusEvent),
    s.events = .write r.offset 4 v :: rest → r.access = .rw → v < 2 ^ 32 →
    (LegalValue s r (BitVec.ofNat 32 v) →
      ∃ t, step s = .next t ∧ t.response = some .okay ∧ t.events = rest ∧
        t.readReg r = some (BitVec.ofNat 32 v) ∧ (∀ r' : Reg, r' ≠ r → t.readReg r' = s.readReg r') ∧
        KeepsMsgBytes s t ∧ KeepsPktBytes s t) ∧
    (¬ LegalValue s r (BitVec.ofNat 32 v) →
      step s = .next { s with events := rest, response := some .error })) ∧
  (∀ (s : State) (w : Nat) (rest : List BusEvent), s.events = .write (Reg.offset .cmd) 4 w :: rest →
    ∃ t, step s = .next t ∧ t.response = some .okay)

/-- R36: every listed access is refused and changes no state. -/
def Obligations.RefusedAccessesChangeNothing : Prop :=
  ∀ (s : State) (e : BusEvent) (rest : List BusEvent), s.events = e :: rest → RefusedAccess s e →
    step s = .next { s with events := rest, response := some .error }

/-- R34, last case: a write that is none of the accepted ones is refused and changes no state. -/
def Obligations.OtherWritesAreRefused : Prop :=
  ∀ (s : State) (addr n v : Nat) (rest : List BusEvent), s.events = .write addr n v :: rest →
    ¬ (n = 4 ∧ addr = 0x00) →
    (¬ ∃ r : Reg, n = 4 ∧ addr = r.offset ∧ r.access = .rw ∧ LegalValue s r (BitVec.ofNat 32 v)) →
    (¬ ∃ b : Buf, n = 1 ∧ InWindow s b addr) →
    step s = .next { s with events := rest, response := some .error }

/-- R34, R43: a window write changes that one byte and nothing else, neither length register nor `STATUS`. -/
def Obligations.WindowWriteChangesOneByte : Prop :=
  ∀ (s : State) (b : Buf) (addr v : Nat) (rest : List BusEvent), s.cfg.legal = true →
    s.events = .write addr 1 v :: rest → InWindow s b addr →
    ∃ t, step s = .next t ∧ t.response = some .okay ∧ t.events = rest ∧
      (t.buffer b).read (addr - b.base) = BitVec.ofNat 8 v ∧
      (∀ (c : Buf) (i : Nat), ¬ (c = b ∧ i = addr - b.base) → (t.buffer c).read i = (s.buffer c).read i) ∧
      t.msgLen = s.msgLen ∧ t.pktLen = s.pktLen ∧ t.status = s.status ∧ KeepsOperands s t ∧ KeepsSums s t ∧
      KeepsRxCsum s t ∧ KeepsHeader s t

/-- A window is a plain memory: a byte read gives the byte last written there, whatever the length registers say. -/
def Obligations.WindowReadSeesTheWrite : Prop :=
  ∀ (s : State) (b c : Buf) (addr addr' v : Nat) (rest : List BusEvent), s.cfg.legal = true →
    s.events = .write addr 1 v :: .read addr' 1 :: rest → InWindow s b addr → InWindow s c addr' →
    ∃ t, runSteps 2 s = .next t ∧ t.events = rest ∧
      t.response = some (.okayByte
        (if addr' = addr then BitVec.ofNat 8 v else (s.buffer c).read (addr' - c.base)))

/-! ## Checksum commands -/

/-- R70: the byte step on accumulators in range. -/
def Obligations.FletcherByteStep : Prop :=
  ∀ (p : Byte × Byte) (b : Byte), p.1.toNat ≤ 254 → p.2.toNat ≤ 254 →
    (flStep p b).1.toNat = (p.1.toNat + b.toNat) % 255 ∧
    (flStep p b).2.toNat = (p.2.toNat + (p.1.toNat + b.toNat) % 255) % 255 ∧
    (flStep p b).1.toNat ≤ 254 ∧ (flStep p b).2.toNat ≤ 254

/-- R72: `CSCLR`. -/
def Obligations.CsclrStartsAChecksum : Prop :=
  encode .csclr = 0x00000001#32 ∧
  ∀ s : State,
    (∃ t, exec .csclr s = .next t ∧ t.s1 = 0#8 ∧ t.s2 = 0#8 ∧ t.csum = 0#16 ∧ EndsWell t ∧
      KeepsMsg s t ∧ KeepsPkt s t ∧ KeepsOperands s t ∧ KeepsRxCsum s t ∧ KeepsHeader s t ∧ KeepsPort s t ∧
      exec .csclr t = .next t) ∧
    (∀ bytes : List Byte, ∃ t, runCommands (.csclr :: bytes.map .csbyte) s = .next t ∧ t.csum = fl16 bytes)

/-- R73: `CSBYTE`. -/
def Obligations.CsbyteFeedsOneByte : Prop :=
  ∀ (s : State) (b : Byte),
    encode (.csbyte b) = 0x00000002#32 ||| (b.zeroExtend 32 <<< 8) ∧
    (∃ t, exec (.csbyte b) s = .next t ∧ t.s1.toNat = (s.s1.toNat + b.toNat) % 255 ∧
      t.s2.toNat = (s.s2.toNat + (s.s1.toNat + b.toNat) % 255) % 255 ∧ EndsWell t ∧
      KeepsMsg s t ∧ KeepsPkt s t ∧ KeepsOperands s t ∧ KeepsRxCsum s t ∧ KeepsHeader s t ∧ KeepsPort s t) ∧
    exec (.csbyte 0xFF#8) s = exec (.csbyte 0x00#8) s ∧
    (s.s1.toNat ≤ 254 → ∃ t, exec (.csbyte 0x00#8) s = .next t ∧ t.s1 = s.s1) ∧
    (∀ bytes : List Byte, (∀ x ∈ bytes, x = 0x00#8 ∨ x = 0xFF#8) → s.s1 = 0#8 → s.s2 = 0#8 →
      ∃ t, runCommands (bytes.map .csbyte) s = .next t ∧ t.s1 = 0#8 ∧ t.s2 = 0#8)

/-- R74: `CSMSG`. -/
def Obligations.CsmsgChecksumsTheMessage : Prop :=
  encode .csmsg = 0x00000003#32 ∧
  ∀ s : State, ∃ t, exec .csmsg s = .next t ∧ (t.s1, t.s2) = flFold (0#8, 0#8) s.message ∧
    t.csum = fl16 s.message ∧ (s.msgLen = 0 → t.csum = 0#16) ∧ EndsWell t ∧
    KeepsMsg s t ∧ KeepsPkt s t ∧ KeepsOperands s t ∧ KeepsRxCsum s t ∧ KeepsHeader s t ∧ KeepsPort s t

/-- R76: (b) the empty input, (c) streaming equals whole, also as commands, (d) `0x00` and `0xFF` interchange, (e) a
single bit flip changes the result, (f) the closed form. Its (a) is that `fl16` is a function, which it is. -/
def Obligations.FletcherLaws : Prop :=
  fl16 [] = 0#16 ∧
  (∀ (p : Byte × Byte) (s t : List Byte), flFold (flFold p s) t = flFold p (s ++ t)) ∧
  (∀ s : State, ∃ t u, runCommands (.csclr :: s.message.map .csbyte) s = .next t ∧ exec .csmsg s = .next u ∧
    t.s1 = u.s1 ∧ t.s2 = u.s2) ∧
  (∀ s t : List Byte, fl16 (s ++ 0x00#8 :: t) = fl16 (s ++ 0xFF#8 :: t)) ∧
  (∀ (s : List Byte) (i k : Nat) (inside : i < s.length), k < 8 →
    fl16 (s.set i (s[i] ^^^ (1#8 <<< k))) ≠ fl16 s) ∧
  (∀ s : List Byte,
    (fl16 s).toNat = 256 * (flSums s).2.toNat + (flSums s).1.toNat ∧
    (flSums s).1.toNat = (s.map BitVec.toNat).sum % 255 ∧
    (flSums s).2.toNat =
      ((List.range s.length).map fun i => (s.length - i) * (s.getD i 0#8).toNat).sum % 255)

/-- R18: no command but `CSBYTE` takes the accumulators as an input. After a failed `ENCODE` or `DECODE` the spec leaves every
byte of the destination buffer unspecified; that those bytes too are the same in the two runs is no rule of the spec but the
model's inference of which free values they are (log entry 6, DEDUCED, unsafe for a claim that compares two runs). -/
def Obligations.OnlyCsbyteReadsTheSums : Prop :=
  ∀ (i : Instr) (s : State) (a b : Byte), (∀ x, i ≠ .csbyte x) →
    ∃ t u, exec i s = .next t ∧ exec i { s with s1 := a, s2 := b } = .next u ∧
      u = { t with s1 := u.s1, s2 := u.s2 } ∧
      (i = .csclr ∨ i = .csmsg ∨ ((i = .finish ∨ i = .trlget) ∧ t.ecode = 0#4) → u.s1 = t.s1 ∧ u.s2 = t.s2)

/-! ## Framer commands -/

/-- R81: the encoder's form with indices gives the same bytes. -/
def Obligations.EncoderIndexFormAgrees : Prop := ∀ s : List Byte, cobsEncIndexed s = cobsEnc s

/-- R85: no zero in the output, and a Packet's only zero is its last byte. -/
def Obligations.EncodedBytesAreNonZero : Prop :=
  ∀ s : List Byte, (∀ b ∈ cobsEnc s, b ≠ 0x00#8) ∧
    (packetOf s).count 0x00#8 = 1 ∧ (packetOf s).getLast? = some 0x00#8

/-- R86: the encoding segment by segment, its length, the bounds, and when the upper one is reached. -/
def Obligations.EncodedLength : Prop :=
  ∀ s : List Byte,
    cobsEnc s =
      (s.splitOn 0x00#8).flatMap (fun seg =>
        ((List.range (seg.length / 254)).flatMap fun k => 0xFF#8 :: (seg.drop (254 * k)).take 254) ++
          BitVec.ofNat 8 (seg.length % 254 + 1) :: seg.drop (254 * (seg.length / 254))) ∧
    (cobsEnc s).length = s.length + 1 + ((s.splitOn 0x00#8).map fun seg => seg.length / 254).sum ∧
    s.length + 1 ≤ (cobsEnc s).length ∧ (cobsEnc s).length ≤ s.length + 1 + s.length / 254 ∧
    (0x00#8 ∉ s → (cobsEnc s).length = s.length + 1 + s.length / 254) ∧
    (packetOf s).length = (cobsEnc s).length + 1

/-- R87: the round trip, of the functions and of the commands. -/
def Obligations.FramingRoundTrip : Prop :=
  (∀ (s : List Byte) (cap : Nat), s.length ≤ cap → cobsDec (cobsEnc s) cap = .ok s) ∧
  (∀ s : State, s.msgLen ≤ s.cfg.msgMax → (cobsEnc s.message).length ≤ s.cfg.pktMax →
    ∃ t, runCommands [.encode, .decode] s = .next t ∧ EndsWell t ∧ t.msgLen = s.msgLen ∧
      ∀ i, i < s.msgLen → t.msg.read i = s.msg.read i)

/-- R82: `ENCODE`. The message is a premise, `m`, so that its bytes are stated as bytes. -/
def Obligations.EncodeFramesTheMessage : Prop :=
  encode .encode = 0x00000010#32 ∧ cobsEnc [] = [0x01#8] ∧
  (∀ n, cobsEnc (List.replicate n 0x00#8) = List.replicate (n + 1) 0x01#8) ∧
  (∀ (s : State) (e : List Byte), e = cobsEnc s.message → e.length ≤ s.cfg.pktMax →
    ∃ t, exec .encode s = .next t ∧ EndsWell t ∧ t.pktLen = e.length ∧
      (∀ (i : Nat) (h : i < e.length), t.pkt.read i = e[i]) ∧
      (∀ i, e.length ≤ i → t.pkt.read i = s.pkt.read i) ∧
      KeepsMsg s t ∧ KeepsOperands s t ∧ KeepsSums s t ∧ KeepsRxCsum s t ∧ KeepsHeader s t ∧ KeepsPort s t ∧
      ∃ u, exec .encode t = .next u ∧ u.pktLen = t.pktLen ∧ KeepsPktBytes t u ∧ u.status = t.status) ∧
  (∀ (s : State), s.cfg.pktMax < (cobsEnc s.message).length →
    ∃ t, exec .encode s = .next t ∧ EndsIn .noSpace t ∧ t.pktLen = 0 ∧
      (∀ i, t.pkt.read i = Config.freeByte s.draws i) ∧
      KeepsMsg s t ∧ KeepsOperands s t ∧ KeepsSums s t ∧ KeepsRxCsum s t ∧ KeepsHeader s t ∧ KeepsPort s t) ∧
  (∀ s : State, s.cfg.sized = true → s.msgLen ≤ s.cfg.msgMax → (cobsEnc s.message).length + 1 ≤ s.cfg.pktMax)

/-- R83: the decoder, one record at a time: the checks in their order, the literals copied, the zero synthesized exactly
when the code is not 255 and more input remains. -/
def Obligations.DecoderTakesOneRecordAtATime : Prop :=
  ∀ cap : Nat,
    cobsDec [] cap = .ok [] ∧
    ∀ (code : Byte) (tail : List Byte),
      (code = 0x00#8 → cobsDec (code :: tail) cap = .error .zeroCode) ∧
      (code ≠ 0x00#8 → tail.length + 1 < code.toNat → cobsDec (code :: tail) cap = .error .trunc) ∧
      ∀ lits rest : List Byte, tail = lits ++ rest → lits.length + 1 = code.toNat →
        (cap < lits.length → cobsDec (code :: tail) cap = .error .noSpace) ∧
        (lits.length ≤ cap →
          (code.toNat = 255 ∨ rest = [] →
            cobsDec (code :: tail) cap = (cobsDec rest (cap - lits.length)).map (lits ++ ·)) ∧
          (code.toNat ≠ 255 → rest ≠ [] → cap < lits.length + 1 →
            cobsDec (code :: tail) cap = .error .noSpace) ∧
          (code.toNat ≠ 255 → rest ≠ [] → lits.length + 1 ≤ cap →
            cobsDec (code :: tail) cap =
              (cobsDec rest (cap - (lits.length + 1))).map (lits ++ 0x00#8 :: ·)))

/-- The decoder never gives more than the room it has. -/
def Obligations.DecodedBytesFitTheRoom : Prop :=
  ∀ (s d : List Byte) (cap : Nat), cobsDec s cap = .ok d → d.length ≤ cap

/-- R84: `DECODE`. -/
def Obligations.DecodeUnframesThePacket : Prop :=
  encode .decode = 0x00000013#32 ∧
  (∀ (s : State) (d : List Byte), cobsDec s.packet s.cfg.msgMax = .ok d →
    ∃ t, exec .decode s = .next t ∧ t.ecode = 0#4 ∧ t.empty = decide (s.pktLen = 0) ∧ t.statusReserved = 0#27 ∧
      t.msgLen = d.length ∧ (∀ (i : Nat) (h : i < d.length), t.msg.read i = d[i]) ∧
      (∀ i, d.length ≤ i → t.msg.read i = s.msg.read i) ∧
      KeepsPkt s t ∧ KeepsOperands s t ∧ KeepsSums s t ∧ KeepsRxCsum s t ∧ KeepsHeader s t ∧ KeepsPort s t) ∧
  (∀ (s : State) (e : CmdError), cobsDec s.packet s.cfg.msgMax = .error e →
    (e = .zeroCode ∨ e = .trunc ∨ e = .noSpace) ∧
    ∃ t, exec .decode s = .next t ∧ EndsIn e t ∧ t.msgLen = 0 ∧
      (∀ i, t.msg.read i = Config.freeByte s.draws i) ∧
      KeepsPkt s t ∧ KeepsOperands s t ∧ KeepsSums s t ∧ KeepsRxCsum s t ∧ KeepsHeader s t ∧ KeepsPort s t) ∧
  (∀ s : State, s.pktLen = 0 → ∃ t, exec .decode s = .next t ∧ t.ecode = 0#4 ∧ t.empty = true ∧ t.msgLen = 0 ∧
    KeepsMsgBytes s t)

/-- R90: the decoder accepts more than the encoder makes. -/
def Obligations.DecoderIsNotInjective : Prop :=
  (∀ (d : List Byte) (cap : Nat), d.length = 254 → 254 ≤ cap →
    cobsDec (0xFF#8 :: d) cap = .ok d ∧ cobsDec (0xFF#8 :: d ++ [0x01#8]) cap = .ok d ∧
    (0x00#8 ∉ d → cobsEnc d = 0xFF#8 :: d ++ [0x01#8])) ∧
  (∀ cap : Nat, cobsDec [] cap = .ok [] ∧ cobsDec [0x01#8] cap = .ok [] ∧ cobsEnc [] = [0x01#8]) ∧
  (∀ cap : Nat, 1 ≤ cap → cobsDec [0x02#8, 0x00#8] cap = .ok [0x00#8] ∧
    cobsDec [0x01#8, 0x01#8] cap = .ok [0x00#8] ∧ cobsEnc [0x00#8] = [0x01#8, 0x01#8])

/-- R88: `TERM`. The byte stored is at index `PKT_LEN`. -/
def Obligations.TermAppendsTheTerminator : Prop :=
  encode .term = 0x00000011#32 ∧
  (∀ s : State, s.pktLen < s.cfg.pktMax →
    ∃ t, exec .term s = .next t ∧ EndsWell t ∧ t.pkt.read s.pktLen = 0x00#8 ∧ t.pktLen = s.pktLen + 1 ∧
      (∀ i, i ≠ s.pktLen → t.pkt.read i = s.pkt.read i) ∧
      KeepsMsg s t ∧ KeepsOperands s t ∧ KeepsSums s t ∧ KeepsRxCsum s t ∧ KeepsHeader s t ∧ KeepsPort s t) ∧
  (∀ s : State, s.cfg.pktMax ≤ s.pktLen →
    ∃ t, exec .term s = .next t ∧ EndsIn .noSpace t ∧ KeepsAllButStatus s t ∧ KeepsPort s t) ∧
  (∀ s : State, s.cfg.sized = true → s.msgLen ≤ s.cfg.msgMax →
    ∃ t, runCommands [.encode, .term] s = .next t ∧ EndsWell t)

/-- R89: `STRIP`, and that it undoes a successful `TERM`. -/
def Obligations.StripRemovesTheTerminator : Prop :=
  encode .strip = 0x00000012#32 ∧
  (∀ s : State, 0 < s.pktLen → s.pkt.read (s.pktLen - 1) = 0x00#8 →
    ∃ t, exec .strip s = .next t ∧ EndsWell t ∧ t.pktLen = s.pktLen - 1 ∧ KeepsPktBytes s t ∧
      KeepsMsg s t ∧ KeepsOperands s t ∧ KeepsSums s t ∧ KeepsRxCsum s t ∧ KeepsHeader s t ∧ KeepsPort s t) ∧
  (∀ s : State, s.pktLen = 0 ∨ s.pkt.read (s.pktLen - 1) ≠ 0x00#8 →
    ∃ t, exec .strip s = .next t ∧ EndsIn .noTerm t ∧ KeepsAllButStatus s t ∧ KeepsPort s t) ∧
  (∀ s : State, s.pktLen < s.cfg.pktMax →
    ∃ t, runCommands [.term, .strip] s = .next t ∧ t.pktLen = s.pktLen ∧
      ∀ i, i < s.pktLen → t.pkt.read i = s.pkt.read i)

/-- R58: `ENCODE` then `TERM` leaves a Packet in `PKT[0 .. PKT_LEN]`, whose first zero is its last byte. -/
def Obligations.EncodeThenTermMakesAPacket : Prop :=
  ∀ s : State, (cobsEnc s.message).length < s.cfg.pktMax →
    ∃ t, runCommands [.encode, .term] s = .next t ∧ EndsWell t ∧ t.packet = packetOf s.message ∧
      0 < t.pktLen ∧ t.pkt.read (t.pktLen - 1) = 0x00#8 ∧
      ∀ i, i < t.pktLen → t.pkt.read i = 0x00#8 → i = t.pktLen - 1

/-- R146: a frame whose terminator was not stripped is refused as `E_ZEROCODE`, given room for one more byte. -/
def Obligations.UnstrippedTerminatorIsRefused : Prop :=
  ∀ (s : List Byte) (cap : Nat), s.length < cap → cobsDec (packetOf s) cap = .error .zeroCode

/-! ## Codec commands -/

/-- R101: `unpack_hdr` by its byte offsets, and the two bijections. -/
def Obligations.HeaderPackingIsABijection : Prop :=
  (∀ h : Header, unpackHdr (packHdr h) = h) ∧
  (∀ l : List Byte, l.length = 17 →
    packHdr (unpackHdr l) = l ∧
    (unpackHdr l).magic.toNat = leNat (l.take 4) ∧
    (unpackHdr l).version.toNat = leNat ((l.drop 4).take 4) ∧
    (unpackHdr l).seq.toNat = leNat ((l.drop 8).take 8) ∧
    l[16]? = some (unpackHdr l).cmd)

/-- R102, R56: `HDRPUT`, byte by byte. -/
def Obligations.HdrputWritesTheHeader : Prop :=
  encode .hdrput = 0x00000020#32 ∧
  ∀ s : State, ∃ t, exec .hdrput s = .next t ∧ EndsWell t ∧ t.msgLen = 17 ∧
    (∀ k, k < 4 → t.msg.read k = s.cfg.magic.extractLsb' (8 * k) 8) ∧
    (∀ k, k < 4 → t.msg.read (4 + k) = s.cfg.version.extractLsb' (8 * k) 8) ∧
    (∀ k, k < 8 → t.msg.read (8 + k) = s.seq.extractLsb' (8 * k) 8) ∧
    t.msg.read 16 = s.command ∧
    (∀ i, 17 ≤ i → t.msg.read i = s.msg.read i) ∧
    KeepsPkt s t ∧ KeepsOperands s t ∧ KeepsSums s t ∧ KeepsRxCsum s t ∧ KeepsHeader s t ∧ KeepsPort s t

/-- R104: `FINISH`. The two bytes stored are at indices `MSG_LEN` and `MSG_LEN + 1`. -/
def Obligations.FinishAppendsTheChecksum : Prop :=
  encode .finish = 0x00000021#32 ∧
  (∀ s : State, s.msgLen + 2 ≤ s.cfg.msgMax →
    ∃ t, exec .finish s = .next t ∧ EndsWell t ∧ (t.s1, t.s2) = flFold (0#8, 0#8) s.message ∧
      t.csum = fl16 s.message ∧ t.msg.read s.msgLen = t.s1 ∧ t.msg.read (s.msgLen + 1) = t.s2 ∧
      t.msgLen = s.msgLen + 2 ∧ (∀ i, i ≠ s.msgLen → i ≠ s.msgLen + 1 → t.msg.read i = s.msg.read i) ∧
      (s.msgLen = 0 → t.msg.read 0 = 0x00#8 ∧ t.msg.read 1 = 0x00#8) ∧
      KeepsPkt s t ∧ KeepsOperands s t ∧ KeepsRxCsum s t ∧ KeepsHeader s t ∧ KeepsPort s t) ∧
  (∀ s : State, s.cfg.msgMax < s.msgLen + 2 →
    ∃ t, exec .finish s = .next t ∧ EndsIn .noSpace t ∧ KeepsAllButStatus s t ∧ KeepsPort s t)

/-- R105: `HDRGET`, each field by the bytes it is made of. -/
def Obligations.HdrgetReadsTheHeader : Prop :=
  encode .hdrget = 0x00000022#32 ∧
  (∀ s : State, 19 ≤ s.msgLen →
    ∃ t, exec .hdrget s = .next t ∧ EndsWell t ∧
      (∀ k, k < 4 → t.hMagic.extractLsb' (8 * k) 8 = s.msg.read k) ∧
      (∀ k, k < 4 → t.hVersion.extractLsb' (8 * k) 8 = s.msg.read (4 + k)) ∧
      (∀ k, k < 8 → t.hSeq.extractLsb' (8 * k) 8 = s.msg.read (8 + k)) ∧
      t.hCmd = s.msg.read 16 ∧
      KeepsMsg s t ∧ KeepsPkt s t ∧ KeepsOperands s t ∧ KeepsSums s t ∧ KeepsRxCsum s t ∧ KeepsPort s t) ∧
  (∀ s : State, s.msgLen < 19 →
    ∃ t, exec .hdrget s = .next t ∧ EndsIn .short t ∧ KeepsAllButStatus s t ∧ KeepsPort s t)

/-- R107: `TRLGET`. -/
def Obligations.TrlgetReadsTheTrailer : Prop :=
  encode .trlget = 0x00000023#32 ∧
  (∀ s : State, 19 ≤ s.msgLen →
    ∃ t, exec .trlget s = .next t ∧ EndsWell t ∧
      t.rxCsum.toNat = (s.msg.read (s.msgLen - 2)).toNat + 256 * (s.msg.read (s.msgLen - 1)).toNat ∧
      (t.s1, t.s2) = flFold (0#8, 0#8) (s.msg.slice 0 (s.msgLen - 2)) ∧
      t.csum = fl16 (s.msg.slice 0 (s.msgLen - 2)) ∧
      KeepsMsg s t ∧ KeepsPkt s t ∧ KeepsOperands s t ∧ KeepsHeader s t ∧ KeepsPort s t) ∧
  (∀ s : State, s.msgLen < 19 →
    ∃ t, exec .trlget s = .next t ∧ EndsIn .short t ∧ KeepsAllButStatus s t ∧ KeepsPort s t)

/-! ## Errors and `STATUS` -/

/-- R121: which error each command ends in, exactly when. -/
def Obligations.ErrorConditions : Prop :=
  (CmdError.code .illegal = 1#4 ∧ CmdError.code .noSpace = 2#4 ∧ CmdError.code .trunc = 3#4 ∧
    CmdError.code .zeroCode = 4#4 ∧ CmdError.code .short = 5#4 ∧ CmdError.code .noTerm = 6#4) ∧
  ∀ s : State,
    (∀ w, (∀ i, decodeWord w ≠ .ok i) → ∃ t, runCommandWord w s = .next t ∧ t.ecode = 1#4) ∧
    (∃ t, exec .encode s = .next t ∧
      t.ecode = if (cobsEnc s.message).length > s.cfg.pktMax then 2#4 else 0#4) ∧
    (∃ t, exec .decode s = .next t ∧
      t.ecode = match cobsDec s.packet s.cfg.msgMax with
        | .ok _ => 0#4
        | .error e => e.code) ∧
    (∃ t, exec .term s = .next t ∧ t.ecode = if s.pktLen ≥ s.cfg.pktMax then 2#4 else 0#4) ∧
    (∃ t, exec .finish s = .next t ∧ t.ecode = if s.msgLen + 2 > s.cfg.msgMax then 2#4 else 0#4) ∧
    (∃ t, exec .hdrget s = .next t ∧ t.ecode = if s.msgLen < 19 then 5#4 else 0#4) ∧
    (∃ t, exec .trlget s = .next t ∧ t.ecode = if s.msgLen < 19 then 5#4 else 0#4) ∧
    (∃ t, exec .strip s = .next t ∧
      t.ecode = if s.pktLen = 0 ∨ s.pkt.read (s.pktLen - 1) ≠ 0x00#8 then 6#4 else 0#4) ∧
    (∃ t, exec .csclr s = .next t ∧ t.ecode = 0#4) ∧
    (∀ b, ∃ t, exec (.csbyte b) s = .next t ∧ t.ecode = 0#4) ∧
    (∃ t, exec .csmsg s = .next t ∧ t.ecode = 0#4) ∧
    (∃ t, exec .hdrput s = .next t ∧ t.ecode = 0#4)

/-- R122: what an error leaves behind, besides `STATUS`. -/
def Obligations.ErrorsLeaveBehind : Prop :=
  (∀ (w : Word) (s : State), (∀ i, decodeWord w ≠ .ok i) →
    ∃ t, runCommandWord w s = .next t ∧ KeepsAllButStatus s t ∧ KeepsPort s t) ∧
  (∀ (i : Instr) (s t : State), exec i s = .next t → t.ecode ≠ 0#4 →
    (i ≠ .encode → i ≠ .decode → KeepsAllButStatus s t) ∧
    (i = .encode → t.pktLen = 0 ∧ (∀ k, t.pkt.read k = Config.freeByte s.draws k) ∧
      KeepsMsg s t ∧ KeepsOperands s t ∧ KeepsSums s t ∧ KeepsRxCsum s t ∧ KeepsHeader s t) ∧
    (i = .decode → t.msgLen = 0 ∧ (∀ k, t.msg.read k = Config.freeByte s.draws k) ∧
      KeepsPkt s t ∧ KeepsOperands s t ∧ KeepsSums s t ∧ KeepsRxCsum s t ∧ KeepsHeader s t) ∧
    KeepsPort s t)

/-- R123: every command writes the whole of `STATUS`, and nothing else but reset does. Whatever word `old` stood in `STATUS`,
`ECODE` is 0 on success and else the code of this command's error (R121), so an error is not sticky. -/
def Obligations.OnlyCommandsWriteStatus : Prop :=
  (∀ (w : Word) (s : State) (old : Word), ∃ t, runCommandWord w { s with status := old } = .next t ∧
    t.ecode = (wordErrorOf w s).elim 0#4 CmdError.code ∧
    (t.empty = true ↔ decodeWord w = .ok .decode ∧ s.pktLen = 0) ∧ t.statusReserved = 0#27) ∧
  (∀ (s t : State) (e : BusEvent) (rest : List BusEvent), s.events = e :: rest → (∀ v, e ≠ .write 0x00 4 v) →
    e ≠ .externalReset → step s = .next t → t.status = s.status)

/-- R27, the columns of writes: what each command may change. -/
def Obligations.CommandsWriteOnlyTheirColumns : Prop :=
  ∀ (i : Instr) (s t : State), exec i s = .next t →
    (i ≠ .decode → i ≠ .hdrput → i ≠ .finish → KeepsMsg s t) ∧
    (i ≠ .encode → i ≠ .term → i ≠ .strip → KeepsPkt s t) ∧
    (i = .strip → KeepsPktBytes s t) ∧
    KeepsOperands s t ∧
    ((∀ b, i ≠ .csbyte b) → i ≠ .csclr → i ≠ .csmsg → i ≠ .finish → i ≠ .trlget → KeepsSums s t) ∧
    (i ≠ .trlget → KeepsRxCsum s t) ∧
    (i ≠ .hdrget → KeepsHeader s t) ∧
    KeepsPort s t

/-- R12, R13: bytes at and above `MSG_LEN` and `PKT_LEN` have no meaning to any command. Two states that differ only in
such bytes end alike: same registers, same `STATUS`, same valid bytes. -/
def Obligations.BytesBeyondTheLengthDoNotMatter : Prop :=
  ∀ (i : Instr) (s s' : State) (m p : Buffer), s' = { s with msg := m, pkt := p } →
    (∀ k, k < s.msgLen → m.read k = s.msg.read k) → (∀ k, k < s.pktLen → p.read k = s.pkt.read k) →
    ∃ t t', exec i s = .next t ∧ exec i s' = .next t' ∧ t' = { t with msg := t'.msg, pkt := t'.pkt } ∧
      t'.message = t.message ∧ t'.packet = t.packet

/-! ## Host scripts -/

/-- R61: the bus events of the script's statements. -/
def Obligations.ScriptStatementEncodings : Prop :=
  (∀ (r : Reg) (v : Word), stmtEvents (.wr r v) = [.write r.offset 4 v.toNat]) ∧
  (∀ r : Reg, stmtEvents (.rd r) = [.read r.offset 4]) ∧
  (∀ (i : Nat) (b : Byte), stmtEvents (.wrb .msg i b) = [.write (0x10000 + i) 1 b.toNat] ∧
    stmtEvents (.wrb .pkt i b) = [.write (0x20000 + i) 1 b.toNat] ∧
    stmtEvents (.rdb .msg i) = [.read (0x10000 + i) 1] ∧ stmtEvents (.rdb .pkt i) = [.read (0x20000 + i) 1]) ∧
  [Instr.csclr, .csmsg, .encode, .term, .strip, .decode, .hdrput, .finish, .hdrget, .trlget].map
      (fun i => stmtEvents (.issue i)) =
    [0x01, 0x03, 0x10, 0x11, 0x12, 0x13, 0x20, 0x21, 0x22, 0x23].map (fun op => [BusEvent.write 0x00 4 op]) ∧
  (∀ b : Byte, stmtEvents (.issue (.csbyte b)) = [.write 0x00 4 (0x02 ||| (b.toNat <<< 8))]) ∧
  (∀ w : Word, stmtEvents (.cmdw w) = [.write 0x00 4 w.toNat])

/-- R62: `LDPKT` loads the bytes and sets `PKT_LEN`; `LDMSG` loads and sets no length. -/
def Obligations.LoadStatementsFillTheBuffers : Prop :=
  (∀ (s : State) (bytes : List Byte) (rest : List BusEvent), s.cfg.legal = true → bytes.length ≤ s.cfg.pktMax →
    s.events = stmtEvents (.ldpkt bytes) ++ rest →
    ∃ t, runSteps (bytes.length + 1) s = .next t ∧ t.events = rest ∧ t.response = some .okay ∧
      t.packet = bytes ∧ (∀ i, bytes.length ≤ i → t.pkt.read i = s.pkt.read i) ∧ KeepsMsg s t ∧
      KeepsOperands s t ∧ KeepsSums s t ∧ KeepsRxCsum s t ∧ KeepsHeader s t ∧ t.status = s.status) ∧
  (∀ (s : State) (at_ : Nat) (bytes : List Byte) (rest : List BusEvent), s.cfg.legal = true →
    at_ + bytes.length ≤ s.cfg.msgMax → s.events = stmtEvents (.ldmsg at_ bytes) ++ rest →
    ∃ t, runSteps bytes.length s = .next t ∧ t.events = rest ∧
      t.msg.slice at_ (at_ + bytes.length) = bytes ∧
      (∀ i, i < at_ ∨ at_ + bytes.length ≤ i → t.msg.read i = s.msg.read i) ∧ t.msgLen = s.msgLen ∧
      KeepsPkt s t ∧ KeepsOperands s t ∧ KeepsSums s t ∧ KeepsRxCsum s t ∧ KeepsHeader s t ∧ t.status = s.status)

/-- R143, R151: the transmit sequence, from any state, leaves the request's Packet and no residue of what was there.
The reads that R143 ends with are `ReadingThePacketOut`. -/
def Obligations.TransmitBuildsTheRequestPacket : Prop :=
  ∀ (s : State) (seq : DWord) (cmd : Byte) (payload : List Byte) (rest : List BusEvent), s.Inv →
    s.cfg.sized = true → 19 + payload.length ≤ s.cfg.msgMax →
    s.events = scriptEvents (transmitScript seq cmd payload) ++ rest →
    ∃ t, runSteps (scriptEvents (transmitScript seq cmd payload)).length s = .next t ∧ t.events = rest ∧
      EndsWell t ∧ t.response = some .okay ∧
      t.packet = packetOf (messageOf ⟨s.cfg.magic, s.cfg.version, seq, cmd⟩ payload)

/-- R144: receiving the Packet of a Message of at least 19 bytes recovers the Message, its header and both checksums. -/
def Obligations.ReceiveRecoversTheMessage : Prop :=
  ∀ (s : State) (m : List Byte) (rest : List BusEvent), s.Inv → 19 ≤ m.length → m.length ≤ s.cfg.msgMax →
    (packetOf m).length ≤ s.cfg.pktMax →
    s.events = scriptEvents (receiveScript (packetOf m) ++ openMessageScript) ++ rest →
    ∃ t, runSteps (scriptEvents (receiveScript (packetOf m) ++ openMessageScript)).length s = .next t ∧
      t.events = rest ∧ EndsWell t ∧ t.message = m ∧
      (⟨t.hMagic, t.hVersion, t.hSeq, t.hCmd⟩ : Header) = unpackHdr (m.take 17) ∧
      t.rxCsum.toNat = leNat (m.drop (m.length - 2)) ∧ t.csum = fl16 (m.take (m.length - 2))

/-- R108: the codec round trip from any state, directly and through the framer. -/
def Obligations.CodecRoundTrip : Prop :=
  ∀ (s : State) (payload : List Byte) (rest : List BusEvent) (framing : List Stmt), s.Inv →
    19 + payload.length ≤ s.cfg.msgMax → (framing = [] ∨ (s.cfg.sized = true ∧ framing = framingScript)) →
    s.events = scriptEvents (codecScript payload framing) ++ rest →
    ∃ t, runSteps (scriptEvents (codecScript payload framing)).length s = .next t ∧ t.events = rest ∧ EndsWell t ∧
      t.hMagic = s.cfg.magic ∧ t.hVersion = s.cfg.version ∧ t.hSeq = s.seq ∧ t.hCmd = s.command ∧
      t.rxCsum = t.csum ∧ t.csum = fl16 (packHdr ⟨s.cfg.magic, s.cfg.version, s.seq, s.command⟩ ++ payload) ∧
      t.msgLen = 19 + payload.length ∧ t.msg.slice 17 (17 + payload.length) = payload

/-- R60, R144: the keep-alive Packet is received as `EMPTY`, and `MSG` keeps its bytes. -/
def Obligations.KeepAliveIsReportedEmpty : Prop :=
  ∀ (s : State) (rest : List BusEvent), s.cfg.legal = true →
    s.events = scriptEvents (receiveScript [0x00#8]) ++ rest →
    ∃ t, runSteps 5 s = .next t ∧ t.events = rest ∧ t.ecode = 0#4 ∧ t.empty = true ∧ t.msgLen = 0 ∧ t.pktLen = 0 ∧
      t.response = some (.okayWord 0x00000010#32) ∧ KeepsMsgBytes s t

/-- R143, the reads it ends with: reading `PKT_LEN` and then `PKT[0 .. PKT_LEN]` answers them one by one, in
order, and leaves the block as it was. -/
def Obligations.ReadingThePacketOut : Prop :=
  ∀ (s : State) (rest : List BusEvent), s.cfg.legal = true → s.pktLen ≤ s.cfg.pktMax →
    s.events = scriptEvents (readPacket s.pktLen) ++ rest →
    (∃ t, runSteps 1 s = .next t ∧ t.response = some (.okayWord (BitVec.ofNat 32 s.pktLen))) ∧
    (∀ i, i < s.pktLen → ∃ t, runSteps (i + 2) s = .next t ∧ t.response = some (.okayByte (s.pkt.read i))) ∧
    ∃ t, runSteps (s.pktLen + 1) s = .next t ∧ t.events = rest ∧ KeepsBlock s t

/-- R62: the pseudo-statements' expansions into statements of R61, and the value of `RD64 H_SEQ`: what its two reads read,
put together as `lo | (hi << 32)`, which is `H_SEQ`. -/
def Obligations.PseudoStatementsExpandAsListed : Prop :=
  (∀ v : DWord, stmtEvents (.wr64Seq v) =
    scriptEvents [.wr .seqLo (v.extractLsb' 0 32), .wr .seqHi (v.extractLsb' 32 32)]) ∧
  (∀ (i : Nat) (bytes : List Byte), stmtEvents (.ldmsg i bytes) =
    scriptEvents ((bytes.zipIdx i).map fun p => .wrb .msg p.2 p.1)) ∧
  (∀ bytes : List Byte, stmtEvents (.ldpkt bytes) =
    scriptEvents ((bytes.zipIdx.map fun p => .wrb .pkt p.2 p.1) ++ [.wr .pktLen (BitVec.ofNat 32 bytes.length)])) ∧
  stmtEvents .rd64HSeq = scriptEvents [.rd .hSeqLo, .rd .hSeqHi] ∧
  ∀ s : State, ∃ (t : State) (lo hi : Word),
    s.readReg .hSeqLo = some lo ∧ s.readReg .hSeqHi = some hi ∧
    runStmt .rd64HSeq s = .next (t, some (lo.zeroExtend 64 ||| (hi.zeroExtend 64 <<< 32))) ∧
    lo.zeroExtend 64 ||| (hi.zeroExtend 64 <<< 32) = s.hSeq ∧ KeepsBlock s t ∧ t.events = s.events

/-- R61: the value of `RD` and of `RDB`, and that reading changes nothing of the block. -/
def Obligations.ReadStatementsHaveTheirValues : Prop :=
  (∀ (s : State) (r : Reg) (v : Word), s.readReg r = some v →
    ∃ t, runStmt (.rd r) s = .next (t, some (v.zeroExtend 64)) ∧ KeepsBlock s t ∧ t.events = s.events) ∧
  (∀ s : State, ∃ t, runStmt (.rd .cmd) s = .next (t, none) ∧ KeepsBlock s t ∧ t.events = s.events) ∧
  (∀ (s : State) (b : Buf) (i : Nat), s.cfg.legal = true → i < bufferSize s.cfg b →
    ∃ t, runStmt (.rdb b i) s = .next (t, some (((s.buffer b).read i).zeroExtend 64)) ∧ KeepsBlock s t ∧
      t.events = s.events)
end

