-- ==== Sys2Proof/Laws/State.lean ====
section
/-! SUPPORT. One lemma per field per named update of the state, so that no later proof unfolds a record update. -/

namespace Sys2Proof.Machine

/-! ## setStatus -/

@[simp] theorem State.setStatus_cfg (s : State) (v : Word) : (s.setStatus v).cfg = s.cfg := rfl
@[simp] theorem State.setStatus_msg (s : State) (v : Word) : (s.setStatus v).msg = s.msg := rfl
@[simp] theorem State.setStatus_pkt (s : State) (v : Word) : (s.setStatus v).pkt = s.pkt := rfl
@[simp] theorem State.setStatus_msgLen (s : State) (v : Word) : (s.setStatus v).msgLen = s.msgLen := rfl
@[simp] theorem State.setStatus_pktLen (s : State) (v : Word) : (s.setStatus v).pktLen = s.pktLen := rfl
@[simp] theorem State.setStatus_seq (s : State) (v : Word) : (s.setStatus v).seq = s.seq := rfl
@[simp] theorem State.setStatus_command (s : State) (v : Word) : (s.setStatus v).command = s.command := rfl
@[simp] theorem State.setStatus_s1 (s : State) (v : Word) : (s.setStatus v).s1 = s.s1 := rfl
@[simp] theorem State.setStatus_s2 (s : State) (v : Word) : (s.setStatus v).s2 = s.s2 := rfl
@[simp] theorem State.setStatus_rxCsum (s : State) (v : Word) : (s.setStatus v).rxCsum = s.rxCsum := rfl
@[simp] theorem State.setStatus_hMagic (s : State) (v : Word) : (s.setStatus v).hMagic = s.hMagic := rfl
@[simp] theorem State.setStatus_hVersion (s : State) (v : Word) : (s.setStatus v).hVersion = s.hVersion := rfl
@[simp] theorem State.setStatus_hSeq (s : State) (v : Word) : (s.setStatus v).hSeq = s.hSeq := rfl
@[simp] theorem State.setStatus_hCmd (s : State) (v : Word) : (s.setStatus v).hCmd = s.hCmd := rfl
@[simp] theorem State.setStatus_status (s : State) (v : Word) : (s.setStatus v).status = v := rfl
@[simp] theorem State.setStatus_draws (s : State) (v : Word) : (s.setStatus v).draws = s.draws := rfl
@[simp] theorem State.setStatus_events (s : State) (v : Word) : (s.setStatus v).events = s.events := rfl
@[simp] theorem State.setStatus_response (s : State) (v : Word) : (s.setStatus v).response = s.response := rfl

/-! ## setSums -/

@[simp] theorem State.setSums_cfg (s : State) (p : Byte × Byte) : (s.setSums p).cfg = s.cfg := rfl
@[simp] theorem State.setSums_msg (s : State) (p : Byte × Byte) : (s.setSums p).msg = s.msg := rfl
@[simp] theorem State.setSums_pkt (s : State) (p : Byte × Byte) : (s.setSums p).pkt = s.pkt := rfl
@[simp] theorem State.setSums_msgLen (s : State) (p : Byte × Byte) : (s.setSums p).msgLen = s.msgLen := rfl
@[simp] theorem State.setSums_pktLen (s : State) (p : Byte × Byte) : (s.setSums p).pktLen = s.pktLen := rfl
@[simp] theorem State.setSums_seq (s : State) (p : Byte × Byte) : (s.setSums p).seq = s.seq := rfl
@[simp] theorem State.setSums_command (s : State) (p : Byte × Byte) : (s.setSums p).command = s.command := rfl
@[simp] theorem State.setSums_s1 (s : State) (p : Byte × Byte) : (s.setSums p).s1 = p.1 := rfl
@[simp] theorem State.setSums_s2 (s : State) (p : Byte × Byte) : (s.setSums p).s2 = p.2 := rfl
@[simp] theorem State.setSums_rxCsum (s : State) (p : Byte × Byte) : (s.setSums p).rxCsum = s.rxCsum := rfl
@[simp] theorem State.setSums_hMagic (s : State) (p : Byte × Byte) : (s.setSums p).hMagic = s.hMagic := rfl
@[simp] theorem State.setSums_hVersion (s : State) (p : Byte × Byte) : (s.setSums p).hVersion = s.hVersion := rfl
@[simp] theorem State.setSums_hSeq (s : State) (p : Byte × Byte) : (s.setSums p).hSeq = s.hSeq := rfl
@[simp] theorem State.setSums_hCmd (s : State) (p : Byte × Byte) : (s.setSums p).hCmd = s.hCmd := rfl
@[simp] theorem State.setSums_status (s : State) (p : Byte × Byte) : (s.setSums p).status = s.status := rfl
@[simp] theorem State.setSums_draws (s : State) (p : Byte × Byte) : (s.setSums p).draws = s.draws := rfl
@[simp] theorem State.setSums_events (s : State) (p : Byte × Byte) : (s.setSums p).events = s.events := rfl
@[simp] theorem State.setSums_response (s : State) (p : Byte × Byte) : (s.setSums p).response = s.response := rfl

/-! ## setMsg -/

@[simp] theorem State.setMsg_cfg (s : State) (b : Buffer) (n : Nat) : (s.setMsg b n).cfg = s.cfg := rfl
@[simp] theorem State.setMsg_msg (s : State) (b : Buffer) (n : Nat) : (s.setMsg b n).msg = b := rfl
@[simp] theorem State.setMsg_pkt (s : State) (b : Buffer) (n : Nat) : (s.setMsg b n).pkt = s.pkt := rfl
@[simp] theorem State.setMsg_msgLen (s : State) (b : Buffer) (n : Nat) : (s.setMsg b n).msgLen = n := rfl
@[simp] theorem State.setMsg_pktLen (s : State) (b : Buffer) (n : Nat) : (s.setMsg b n).pktLen = s.pktLen := rfl
@[simp] theorem State.setMsg_seq (s : State) (b : Buffer) (n : Nat) : (s.setMsg b n).seq = s.seq := rfl
@[simp] theorem State.setMsg_command (s : State) (b : Buffer) (n : Nat) : (s.setMsg b n).command = s.command := rfl
@[simp] theorem State.setMsg_s1 (s : State) (b : Buffer) (n : Nat) : (s.setMsg b n).s1 = s.s1 := rfl
@[simp] theorem State.setMsg_s2 (s : State) (b : Buffer) (n : Nat) : (s.setMsg b n).s2 = s.s2 := rfl
@[simp] theorem State.setMsg_rxCsum (s : State) (b : Buffer) (n : Nat) : (s.setMsg b n).rxCsum = s.rxCsum := rfl
@[simp] theorem State.setMsg_hMagic (s : State) (b : Buffer) (n : Nat) : (s.setMsg b n).hMagic = s.hMagic := rfl
@[simp] theorem State.setMsg_hVersion (s : State) (b : Buffer) (n : Nat) : (s.setMsg b n).hVersion = s.hVersion := rfl
@[simp] theorem State.setMsg_hSeq (s : State) (b : Buffer) (n : Nat) : (s.setMsg b n).hSeq = s.hSeq := rfl
@[simp] theorem State.setMsg_hCmd (s : State) (b : Buffer) (n : Nat) : (s.setMsg b n).hCmd = s.hCmd := rfl
@[simp] theorem State.setMsg_status (s : State) (b : Buffer) (n : Nat) : (s.setMsg b n).status = s.status := rfl
@[simp] theorem State.setMsg_draws (s : State) (b : Buffer) (n : Nat) : (s.setMsg b n).draws = s.draws := rfl
@[simp] theorem State.setMsg_events (s : State) (b : Buffer) (n : Nat) : (s.setMsg b n).events = s.events := rfl
@[simp] theorem State.setMsg_response (s : State) (b : Buffer) (n : Nat) : (s.setMsg b n).response = s.response := rfl

/-! ## setPkt -/

@[simp] theorem State.setPkt_cfg (s : State) (b : Buffer) (n : Nat) : (s.setPkt b n).cfg = s.cfg := rfl
@[simp] theorem State.setPkt_msg (s : State) (b : Buffer) (n : Nat) : (s.setPkt b n).msg = s.msg := rfl
@[simp] theorem State.setPkt_pkt (s : State) (b : Buffer) (n : Nat) : (s.setPkt b n).pkt = b := rfl
@[simp] theorem State.setPkt_msgLen (s : State) (b : Buffer) (n : Nat) : (s.setPkt b n).msgLen = s.msgLen := rfl
@[simp] theorem State.setPkt_pktLen (s : State) (b : Buffer) (n : Nat) : (s.setPkt b n).pktLen = n := rfl
@[simp] theorem State.setPkt_seq (s : State) (b : Buffer) (n : Nat) : (s.setPkt b n).seq = s.seq := rfl
@[simp] theorem State.setPkt_command (s : State) (b : Buffer) (n : Nat) : (s.setPkt b n).command = s.command := rfl
@[simp] theorem State.setPkt_s1 (s : State) (b : Buffer) (n : Nat) : (s.setPkt b n).s1 = s.s1 := rfl
@[simp] theorem State.setPkt_s2 (s : State) (b : Buffer) (n : Nat) : (s.setPkt b n).s2 = s.s2 := rfl
@[simp] theorem State.setPkt_rxCsum (s : State) (b : Buffer) (n : Nat) : (s.setPkt b n).rxCsum = s.rxCsum := rfl
@[simp] theorem State.setPkt_hMagic (s : State) (b : Buffer) (n : Nat) : (s.setPkt b n).hMagic = s.hMagic := rfl
@[simp] theorem State.setPkt_hVersion (s : State) (b : Buffer) (n : Nat) : (s.setPkt b n).hVersion = s.hVersion := rfl
@[simp] theorem State.setPkt_hSeq (s : State) (b : Buffer) (n : Nat) : (s.setPkt b n).hSeq = s.hSeq := rfl
@[simp] theorem State.setPkt_hCmd (s : State) (b : Buffer) (n : Nat) : (s.setPkt b n).hCmd = s.hCmd := rfl
@[simp] theorem State.setPkt_status (s : State) (b : Buffer) (n : Nat) : (s.setPkt b n).status = s.status := rfl
@[simp] theorem State.setPkt_draws (s : State) (b : Buffer) (n : Nat) : (s.setPkt b n).draws = s.draws := rfl
@[simp] theorem State.setPkt_events (s : State) (b : Buffer) (n : Nat) : (s.setPkt b n).events = s.events := rfl
@[simp] theorem State.setPkt_response (s : State) (b : Buffer) (n : Nat) : (s.setPkt b n).response = s.response := rfl

/-! ## setRxCsum -/

@[simp] theorem State.setRxCsum_cfg (s : State) (v : Half) : (s.setRxCsum v).cfg = s.cfg := rfl
@[simp] theorem State.setRxCsum_msg (s : State) (v : Half) : (s.setRxCsum v).msg = s.msg := rfl
@[simp] theorem State.setRxCsum_pkt (s : State) (v : Half) : (s.setRxCsum v).pkt = s.pkt := rfl
@[simp] theorem State.setRxCsum_msgLen (s : State) (v : Half) : (s.setRxCsum v).msgLen = s.msgLen := rfl
@[simp] theorem State.setRxCsum_pktLen (s : State) (v : Half) : (s.setRxCsum v).pktLen = s.pktLen := rfl
@[simp] theorem State.setRxCsum_seq (s : State) (v : Half) : (s.setRxCsum v).seq = s.seq := rfl
@[simp] theorem State.setRxCsum_command (s : State) (v : Half) : (s.setRxCsum v).command = s.command := rfl
@[simp] theorem State.setRxCsum_s1 (s : State) (v : Half) : (s.setRxCsum v).s1 = s.s1 := rfl
@[simp] theorem State.setRxCsum_s2 (s : State) (v : Half) : (s.setRxCsum v).s2 = s.s2 := rfl
@[simp] theorem State.setRxCsum_rxCsum (s : State) (v : Half) : (s.setRxCsum v).rxCsum = v := rfl
@[simp] theorem State.setRxCsum_hMagic (s : State) (v : Half) : (s.setRxCsum v).hMagic = s.hMagic := rfl
@[simp] theorem State.setRxCsum_hVersion (s : State) (v : Half) : (s.setRxCsum v).hVersion = s.hVersion := rfl
@[simp] theorem State.setRxCsum_hSeq (s : State) (v : Half) : (s.setRxCsum v).hSeq = s.hSeq := rfl
@[simp] theorem State.setRxCsum_hCmd (s : State) (v : Half) : (s.setRxCsum v).hCmd = s.hCmd := rfl
@[simp] theorem State.setRxCsum_status (s : State) (v : Half) : (s.setRxCsum v).status = s.status := rfl
@[simp] theorem State.setRxCsum_draws (s : State) (v : Half) : (s.setRxCsum v).draws = s.draws := rfl
@[simp] theorem State.setRxCsum_events (s : State) (v : Half) : (s.setRxCsum v).events = s.events := rfl
@[simp] theorem State.setRxCsum_response (s : State) (v : Half) : (s.setRxCsum v).response = s.response := rfl

/-! ## setHeader -/

@[simp] theorem State.setHeader_cfg (s : State) (m w : Word) (q : DWord) (c : Byte) : (s.setHeader m w q c).cfg = s.cfg := rfl
@[simp] theorem State.setHeader_msg (s : State) (m w : Word) (q : DWord) (c : Byte) : (s.setHeader m w q c).msg = s.msg := rfl
@[simp] theorem State.setHeader_pkt (s : State) (m w : Word) (q : DWord) (c : Byte) : (s.setHeader m w q c).pkt = s.pkt := rfl
@[simp] theorem State.setHeader_msgLen (s : State) (m w : Word) (q : DWord) (c : Byte) : (s.setHeader m w q c).msgLen = s.msgLen := rfl
@[simp] theorem State.setHeader_pktLen (s : State) (m w : Word) (q : DWord) (c : Byte) : (s.setHeader m w q c).pktLen = s.pktLen := rfl
@[simp] theorem State.setHeader_seq (s : State) (m w : Word) (q : DWord) (c : Byte) : (s.setHeader m w q c).seq = s.seq := rfl
@[simp] theorem State.setHeader_command (s : State) (m w : Word) (q : DWord) (c : Byte) : (s.setHeader m w q c).command = s.command := rfl
@[simp] theorem State.setHeader_s1 (s : State) (m w : Word) (q : DWord) (c : Byte) : (s.setHeader m w q c).s1 = s.s1 := rfl
@[simp] theorem State.setHeader_s2 (s : State) (m w : Word) (q : DWord) (c : Byte) : (s.setHeader m w q c).s2 = s.s2 := rfl
@[simp] theorem State.setHeader_rxCsum (s : State) (m w : Word) (q : DWord) (c : Byte) : (s.setHeader m w q c).rxCsum = s.rxCsum := rfl
@[simp] theorem State.setHeader_hMagic (s : State) (m w : Word) (q : DWord) (c : Byte) : (s.setHeader m w q c).hMagic = m := rfl
@[simp] theorem State.setHeader_hVersion (s : State) (m w : Word) (q : DWord) (c : Byte) : (s.setHeader m w q c).hVersion = w := rfl
@[simp] theorem State.setHeader_hSeq (s : State) (m w : Word) (q : DWord) (c : Byte) : (s.setHeader m w q c).hSeq = q := rfl
@[simp] theorem State.setHeader_hCmd (s : State) (m w : Word) (q : DWord) (c : Byte) : (s.setHeader m w q c).hCmd = c := rfl
@[simp] theorem State.setHeader_status (s : State) (m w : Word) (q : DWord) (c : Byte) : (s.setHeader m w q c).status = s.status := rfl
@[simp] theorem State.setHeader_draws (s : State) (m w : Word) (q : DWord) (c : Byte) : (s.setHeader m w q c).draws = s.draws := rfl
@[simp] theorem State.setHeader_events (s : State) (m w : Word) (q : DWord) (c : Byte) : (s.setHeader m w q c).events = s.events := rfl
@[simp] theorem State.setHeader_response (s : State) (m w : Word) (q : DWord) (c : Byte) : (s.setHeader m w q c).response = s.response := rfl

/-! ## loseMsg -/

@[simp] theorem State.loseMsg_cfg (s : State) : s.loseMsg.cfg = s.cfg := rfl
@[simp] theorem State.loseMsg_msg (s : State) : s.loseMsg.msg = Buffer.unspecified s.draws := rfl
@[simp] theorem State.loseMsg_pkt (s : State) : s.loseMsg.pkt = s.pkt := rfl
@[simp] theorem State.loseMsg_msgLen (s : State) : s.loseMsg.msgLen = 0 := rfl
@[simp] theorem State.loseMsg_pktLen (s : State) : s.loseMsg.pktLen = s.pktLen := rfl
@[simp] theorem State.loseMsg_seq (s : State) : s.loseMsg.seq = s.seq := rfl
@[simp] theorem State.loseMsg_command (s : State) : s.loseMsg.command = s.command := rfl
@[simp] theorem State.loseMsg_s1 (s : State) : s.loseMsg.s1 = s.s1 := rfl
@[simp] theorem State.loseMsg_s2 (s : State) : s.loseMsg.s2 = s.s2 := rfl
@[simp] theorem State.loseMsg_rxCsum (s : State) : s.loseMsg.rxCsum = s.rxCsum := rfl
@[simp] theorem State.loseMsg_hMagic (s : State) : s.loseMsg.hMagic = s.hMagic := rfl
@[simp] theorem State.loseMsg_hVersion (s : State) : s.loseMsg.hVersion = s.hVersion := rfl
@[simp] theorem State.loseMsg_hSeq (s : State) : s.loseMsg.hSeq = s.hSeq := rfl
@[simp] theorem State.loseMsg_hCmd (s : State) : s.loseMsg.hCmd = s.hCmd := rfl
@[simp] theorem State.loseMsg_status (s : State) : s.loseMsg.status = s.status := rfl
@[simp] theorem State.loseMsg_draws (s : State) : s.loseMsg.draws = s.draws + 1 := rfl
@[simp] theorem State.loseMsg_events (s : State) : s.loseMsg.events = s.events := rfl
@[simp] theorem State.loseMsg_response (s : State) : s.loseMsg.response = s.response := rfl

/-! ## losePkt -/

@[simp] theorem State.losePkt_cfg (s : State) : s.losePkt.cfg = s.cfg := rfl
@[simp] theorem State.losePkt_msg (s : State) : s.losePkt.msg = s.msg := rfl
@[simp] theorem State.losePkt_pkt (s : State) : s.losePkt.pkt = Buffer.unspecified s.draws := rfl
@[simp] theorem State.losePkt_msgLen (s : State) : s.losePkt.msgLen = s.msgLen := rfl
@[simp] theorem State.losePkt_pktLen (s : State) : s.losePkt.pktLen = 0 := rfl
@[simp] theorem State.losePkt_seq (s : State) : s.losePkt.seq = s.seq := rfl
@[simp] theorem State.losePkt_command (s : State) : s.losePkt.command = s.command := rfl
@[simp] theorem State.losePkt_s1 (s : State) : s.losePkt.s1 = s.s1 := rfl
@[simp] theorem State.losePkt_s2 (s : State) : s.losePkt.s2 = s.s2 := rfl
@[simp] theorem State.losePkt_rxCsum (s : State) : s.losePkt.rxCsum = s.rxCsum := rfl
@[simp] theorem State.losePkt_hMagic (s : State) : s.losePkt.hMagic = s.hMagic := rfl
@[simp] theorem State.losePkt_hVersion (s : State) : s.losePkt.hVersion = s.hVersion := rfl
@[simp] theorem State.losePkt_hSeq (s : State) : s.losePkt.hSeq = s.hSeq := rfl
@[simp] theorem State.losePkt_hCmd (s : State) : s.losePkt.hCmd = s.hCmd := rfl
@[simp] theorem State.losePkt_status (s : State) : s.losePkt.status = s.status := rfl
@[simp] theorem State.losePkt_draws (s : State) : s.losePkt.draws = s.draws + 1 := rfl
@[simp] theorem State.losePkt_events (s : State) : s.losePkt.events = s.events := rfl
@[simp] theorem State.losePkt_response (s : State) : s.losePkt.response = s.response := rfl

/-! ## respond -/

@[simp] theorem State.respond_cfg (s : State) (r : Response) : (s.respond r).cfg = s.cfg := rfl
@[simp] theorem State.respond_msg (s : State) (r : Response) : (s.respond r).msg = s.msg := rfl
@[simp] theorem State.respond_pkt (s : State) (r : Response) : (s.respond r).pkt = s.pkt := rfl
@[simp] theorem State.respond_msgLen (s : State) (r : Response) : (s.respond r).msgLen = s.msgLen := rfl
@[simp] theorem State.respond_pktLen (s : State) (r : Response) : (s.respond r).pktLen = s.pktLen := rfl
@[simp] theorem State.respond_seq (s : State) (r : Response) : (s.respond r).seq = s.seq := rfl
@[simp] theorem State.respond_command (s : State) (r : Response) : (s.respond r).command = s.command := rfl
@[simp] theorem State.respond_s1 (s : State) (r : Response) : (s.respond r).s1 = s.s1 := rfl
@[simp] theorem State.respond_s2 (s : State) (r : Response) : (s.respond r).s2 = s.s2 := rfl
@[simp] theorem State.respond_rxCsum (s : State) (r : Response) : (s.respond r).rxCsum = s.rxCsum := rfl
@[simp] theorem State.respond_hMagic (s : State) (r : Response) : (s.respond r).hMagic = s.hMagic := rfl
@[simp] theorem State.respond_hVersion (s : State) (r : Response) : (s.respond r).hVersion = s.hVersion := rfl
@[simp] theorem State.respond_hSeq (s : State) (r : Response) : (s.respond r).hSeq = s.hSeq := rfl
@[simp] theorem State.respond_hCmd (s : State) (r : Response) : (s.respond r).hCmd = s.hCmd := rfl
@[simp] theorem State.respond_status (s : State) (r : Response) : (s.respond r).status = s.status := rfl
@[simp] theorem State.respond_draws (s : State) (r : Response) : (s.respond r).draws = s.draws := rfl
@[simp] theorem State.respond_events (s : State) (r : Response) : (s.respond r).events = s.events := rfl
@[simp] theorem State.respond_response (s : State) (r : Response) : (s.respond r).response = some r := rfl

/-! ## endCommand -/

@[simp] theorem State.endCommand_cfg (s : State) (o : Option CmdError) (e : Bool) : (s.endCommand o e).cfg = s.cfg := rfl
@[simp] theorem State.endCommand_msg (s : State) (o : Option CmdError) (e : Bool) : (s.endCommand o e).msg = s.msg := rfl
@[simp] theorem State.endCommand_pkt (s : State) (o : Option CmdError) (e : Bool) : (s.endCommand o e).pkt = s.pkt := rfl
@[simp] theorem State.endCommand_msgLen (s : State) (o : Option CmdError) (e : Bool) : (s.endCommand o e).msgLen = s.msgLen := rfl
@[simp] theorem State.endCommand_pktLen (s : State) (o : Option CmdError) (e : Bool) : (s.endCommand o e).pktLen = s.pktLen := rfl
@[simp] theorem State.endCommand_seq (s : State) (o : Option CmdError) (e : Bool) : (s.endCommand o e).seq = s.seq := rfl
@[simp] theorem State.endCommand_command (s : State) (o : Option CmdError) (e : Bool) : (s.endCommand o e).command = s.command := rfl
@[simp] theorem State.endCommand_s1 (s : State) (o : Option CmdError) (e : Bool) : (s.endCommand o e).s1 = s.s1 := rfl
@[simp] theorem State.endCommand_s2 (s : State) (o : Option CmdError) (e : Bool) : (s.endCommand o e).s2 = s.s2 := rfl
@[simp] theorem State.endCommand_rxCsum (s : State) (o : Option CmdError) (e : Bool) : (s.endCommand o e).rxCsum = s.rxCsum := rfl
@[simp] theorem State.endCommand_hMagic (s : State) (o : Option CmdError) (e : Bool) : (s.endCommand o e).hMagic = s.hMagic := rfl
@[simp] theorem State.endCommand_hVersion (s : State) (o : Option CmdError) (e : Bool) : (s.endCommand o e).hVersion = s.hVersion := rfl
@[simp] theorem State.endCommand_hSeq (s : State) (o : Option CmdError) (e : Bool) : (s.endCommand o e).hSeq = s.hSeq := rfl
@[simp] theorem State.endCommand_hCmd (s : State) (o : Option CmdError) (e : Bool) : (s.endCommand o e).hCmd = s.hCmd := rfl
@[simp] theorem State.endCommand_status (s : State) (o : Option CmdError) (e : Bool) : (s.endCommand o e).status = statusWord o e := rfl
@[simp] theorem State.endCommand_draws (s : State) (o : Option CmdError) (e : Bool) : (s.endCommand o e).draws = s.draws := rfl
@[simp] theorem State.endCommand_events (s : State) (o : Option CmdError) (e : Bool) : (s.endCommand o e).events = s.events := rfl
@[simp] theorem State.endCommand_response (s : State) (o : Option CmdError) (e : Bool) : (s.endCommand o e).response = s.response := rfl

/-! ## resetWith -/

@[simp] theorem State.resetWith_cfg (c : Config) (d : Nat) (ev : List BusEvent) : (State.resetWith c d ev).cfg = c := rfl
@[simp] theorem State.resetWith_msg (c : Config) (d : Nat) (ev : List BusEvent) : (State.resetWith c d ev).msg = Buffer.unspecified d := rfl
@[simp] theorem State.resetWith_pkt (c : Config) (d : Nat) (ev : List BusEvent) : (State.resetWith c d ev).pkt = Buffer.unspecified (d + 1) := rfl
@[simp] theorem State.resetWith_msgLen (c : Config) (d : Nat) (ev : List BusEvent) : (State.resetWith c d ev).msgLen = 0 := rfl
@[simp] theorem State.resetWith_pktLen (c : Config) (d : Nat) (ev : List BusEvent) : (State.resetWith c d ev).pktLen = 0 := rfl
@[simp] theorem State.resetWith_seq (c : Config) (d : Nat) (ev : List BusEvent) : (State.resetWith c d ev).seq = 0#64 := rfl
@[simp] theorem State.resetWith_command (c : Config) (d : Nat) (ev : List BusEvent) : (State.resetWith c d ev).command = 0#8 := rfl
@[simp] theorem State.resetWith_s1 (c : Config) (d : Nat) (ev : List BusEvent) : (State.resetWith c d ev).s1 = 0#8 := rfl
@[simp] theorem State.resetWith_s2 (c : Config) (d : Nat) (ev : List BusEvent) : (State.resetWith c d ev).s2 = 0#8 := rfl
@[simp] theorem State.resetWith_rxCsum (c : Config) (d : Nat) (ev : List BusEvent) : (State.resetWith c d ev).rxCsum = 0#16 := rfl
@[simp] theorem State.resetWith_hMagic (c : Config) (d : Nat) (ev : List BusEvent) : (State.resetWith c d ev).hMagic = 0#32 := rfl
@[simp] theorem State.resetWith_hVersion (c : Config) (d : Nat) (ev : List BusEvent) : (State.resetWith c d ev).hVersion = 0#32 := rfl
@[simp] theorem State.resetWith_hSeq (c : Config) (d : Nat) (ev : List BusEvent) : (State.resetWith c d ev).hSeq = 0#64 := rfl
@[simp] theorem State.resetWith_hCmd (c : Config) (d : Nat) (ev : List BusEvent) : (State.resetWith c d ev).hCmd = 0#8 := rfl
@[simp] theorem State.resetWith_status (c : Config) (d : Nat) (ev : List BusEvent) : (State.resetWith c d ev).status = 0#32 := rfl
@[simp] theorem State.resetWith_draws (c : Config) (d : Nat) (ev : List BusEvent) : (State.resetWith c d ev).draws = d + 2 := rfl
@[simp] theorem State.resetWith_events (c : Config) (d : Nat) (ev : List BusEvent) : (State.resetWith c d ev).events = ev := rfl
@[simp] theorem State.resetWith_response (c : Config) (d : Nat) (ev : List BusEvent) : (State.resetWith c d ev).response = none := rfl

/-! ## pokeByte, one lemma per buffer -/

@[simp] theorem State.pokeByte_msg_cfg (s : State) (i : Nat) (v : Byte) : (s.pokeByte .msg i v).cfg = s.cfg := rfl
@[simp] theorem State.pokeByte_msg_msg (s : State) (i : Nat) (v : Byte) : (s.pokeByte .msg i v).msg = s.msg.write i v := rfl
@[simp] theorem State.pokeByte_msg_pkt (s : State) (i : Nat) (v : Byte) : (s.pokeByte .msg i v).pkt = s.pkt := rfl
@[simp] theorem State.pokeByte_msg_msgLen (s : State) (i : Nat) (v : Byte) : (s.pokeByte .msg i v).msgLen = s.msgLen := rfl
@[simp] theorem State.pokeByte_msg_pktLen (s : State) (i : Nat) (v : Byte) : (s.pokeByte .msg i v).pktLen = s.pktLen := rfl
@[simp] theorem State.pokeByte_msg_seq (s : State) (i : Nat) (v : Byte) : (s.pokeByte .msg i v).seq = s.seq := rfl
@[simp] theorem State.pokeByte_msg_command (s : State) (i : Nat) (v : Byte) : (s.pokeByte .msg i v).command = s.command := rfl
@[simp] theorem State.pokeByte_msg_s1 (s : State) (i : Nat) (v : Byte) : (s.pokeByte .msg i v).s1 = s.s1 := rfl
@[simp] theorem State.pokeByte_msg_s2 (s : State) (i : Nat) (v : Byte) : (s.pokeByte .msg i v).s2 = s.s2 := rfl
@[simp] theorem State.pokeByte_msg_rxCsum (s : State) (i : Nat) (v : Byte) : (s.pokeByte .msg i v).rxCsum = s.rxCsum := rfl
@[simp] theorem State.pokeByte_msg_hMagic (s : State) (i : Nat) (v : Byte) : (s.pokeByte .msg i v).hMagic = s.hMagic := rfl
@[simp] theorem State.pokeByte_msg_hVersion (s : State) (i : Nat) (v : Byte) : (s.pokeByte .msg i v).hVersion = s.hVersion := rfl
@[simp] theorem State.pokeByte_msg_hSeq (s : State) (i : Nat) (v : Byte) : (s.pokeByte .msg i v).hSeq = s.hSeq := rfl
@[simp] theorem State.pokeByte_msg_hCmd (s : State) (i : Nat) (v : Byte) : (s.pokeByte .msg i v).hCmd = s.hCmd := rfl
@[simp] theorem State.pokeByte_msg_status (s : State) (i : Nat) (v : Byte) : (s.pokeByte .msg i v).status = s.status := rfl
@[simp] theorem State.pokeByte_msg_draws (s : State) (i : Nat) (v : Byte) : (s.pokeByte .msg i v).draws = s.draws := rfl
@[simp] theorem State.pokeByte_msg_events (s : State) (i : Nat) (v : Byte) : (s.pokeByte .msg i v).events = s.events := rfl
@[simp] theorem State.pokeByte_msg_response (s : State) (i : Nat) (v : Byte) : (s.pokeByte .msg i v).response = s.response := rfl
@[simp] theorem State.pokeByte_pkt_cfg (s : State) (i : Nat) (v : Byte) : (s.pokeByte .pkt i v).cfg = s.cfg := rfl
@[simp] theorem State.pokeByte_pkt_msg (s : State) (i : Nat) (v : Byte) : (s.pokeByte .pkt i v).msg = s.msg := rfl
@[simp] theorem State.pokeByte_pkt_pkt (s : State) (i : Nat) (v : Byte) : (s.pokeByte .pkt i v).pkt = s.pkt.write i v := rfl
@[simp] theorem State.pokeByte_pkt_msgLen (s : State) (i : Nat) (v : Byte) : (s.pokeByte .pkt i v).msgLen = s.msgLen := rfl
@[simp] theorem State.pokeByte_pkt_pktLen (s : State) (i : Nat) (v : Byte) : (s.pokeByte .pkt i v).pktLen = s.pktLen := rfl
@[simp] theorem State.pokeByte_pkt_seq (s : State) (i : Nat) (v : Byte) : (s.pokeByte .pkt i v).seq = s.seq := rfl
@[simp] theorem State.pokeByte_pkt_command (s : State) (i : Nat) (v : Byte) : (s.pokeByte .pkt i v).command = s.command := rfl
@[simp] theorem State.pokeByte_pkt_s1 (s : State) (i : Nat) (v : Byte) : (s.pokeByte .pkt i v).s1 = s.s1 := rfl
@[simp] theorem State.pokeByte_pkt_s2 (s : State) (i : Nat) (v : Byte) : (s.pokeByte .pkt i v).s2 = s.s2 := rfl
@[simp] theorem State.pokeByte_pkt_rxCsum (s : State) (i : Nat) (v : Byte) : (s.pokeByte .pkt i v).rxCsum = s.rxCsum := rfl
@[simp] theorem State.pokeByte_pkt_hMagic (s : State) (i : Nat) (v : Byte) : (s.pokeByte .pkt i v).hMagic = s.hMagic := rfl
@[simp] theorem State.pokeByte_pkt_hVersion (s : State) (i : Nat) (v : Byte) : (s.pokeByte .pkt i v).hVersion = s.hVersion := rfl
@[simp] theorem State.pokeByte_pkt_hSeq (s : State) (i : Nat) (v : Byte) : (s.pokeByte .pkt i v).hSeq = s.hSeq := rfl
@[simp] theorem State.pokeByte_pkt_hCmd (s : State) (i : Nat) (v : Byte) : (s.pokeByte .pkt i v).hCmd = s.hCmd := rfl
@[simp] theorem State.pokeByte_pkt_status (s : State) (i : Nat) (v : Byte) : (s.pokeByte .pkt i v).status = s.status := rfl
@[simp] theorem State.pokeByte_pkt_draws (s : State) (i : Nat) (v : Byte) : (s.pokeByte .pkt i v).draws = s.draws := rfl
@[simp] theorem State.pokeByte_pkt_events (s : State) (i : Nat) (v : Byte) : (s.pokeByte .pkt i v).events = s.events := rfl
@[simp] theorem State.pokeByte_pkt_response (s : State) (i : Nat) (v : Byte) : (s.pokeByte .pkt i v).response = s.response := rfl

end Sys2Proof.Machine
end

