-- ==== Sys2Proof/Laws/Flags.lean ====
section
/-! SUPPORT. The fields of `STATUS` after a command has ended. -/

namespace Sys2Proof.Machine

theorem statusWord_ecode (o : Option CmdError) (e : Bool) : (statusWord o e).extractLsb' 0 4 = outcomeCode o := by
  cases o with
  | none => cases e <;> decide
  | some x => cases x <;> cases e <;> decide

theorem statusWord_empty (o : Option CmdError) (e : Bool) : (statusWord o e).getLsbD 4 = e := by
  cases o with
  | none => cases e <;> decide
  | some x => cases x <;> cases e <;> decide

theorem statusWord_reserved (o : Option CmdError) (e : Bool) : (statusWord o e).extractLsb' 5 27 = 0#27 := by
  cases o with
  | none => cases e <;> decide
  | some x => cases x <;> cases e <;> decide

@[simp] theorem State.endCommand_ecode (s : State) (o : Option CmdError) (e : Bool) :
    (s.endCommand o e).ecode = outcomeCode o := statusWord_ecode o e

@[simp] theorem State.endCommand_empty (s : State) (o : Option CmdError) (e : Bool) :
    (s.endCommand o e).empty = e := statusWord_empty o e

@[simp] theorem State.endCommand_statusReserved (s : State) (o : Option CmdError) (e : Bool) :
    (s.endCommand o e).statusReserved = 0#27 := statusWord_reserved o e

@[simp] theorem State.respond_ecode (s : State) (r : Response) : (s.respond r).ecode = s.ecode := rfl

@[simp] theorem State.respond_empty (s : State) (r : Response) : (s.respond r).empty = s.empty := rfl

@[simp] theorem State.respond_statusReserved (s : State) (r : Response) :
    (s.respond r).statusReserved = s.statusReserved := rfl

@[simp] theorem outcomeCode_none : outcomeCode none = 0#4 := rfl

@[simp] theorem outcomeCode_some (e : CmdError) : outcomeCode (some e) = e.code := rfl

theorem CmdError.code_pos (e : CmdError) : 1 ≤ e.code.toNat := by cases e <;> decide

theorem outcomeCode_le (o : Option CmdError) : (outcomeCode o).toNat ≤ 6 := by
  cases o with
  | none => decide
  | some x => cases x <;> decide

end Sys2Proof.Machine
end

