-- ==== Sys2Proof/Laws/Memory.lean ====
section
/-! SUPPORT. The laws of memories and buffers: read after write, the canonical form, the bound on indices, slices. -/

namespace Sys2Proof.Machine

/-! ## Memories -/

theorem Memory.byteAt_store (m : Memory) (i j : Nat) (v : Byte) :
    (m.store i v).byteAt j = if i = j then some v else m.byteAt j := by
  induction m with
  | nil => simp [Memory.store, Memory.byteAt]
  | cons c rest ih =>
    obtain ⟨a, b⟩ := c
    simp only [Memory.store]
    split
    · simp [Memory.byteAt]
    · split
      · subst i; simp only [Memory.byteAt]; split <;> rfl
      · simp only [Memory.byteAt, ih]
        split <;> split <;> first | rfl | omega

theorem Memory.mem_store {m : Memory} {i : Nat} {v : Byte} {c : Host.Cell} (h : c ∈ m.store i v) :
    c = (i, v) ∨ c ∈ m := by
  induction m with
  | nil => simpa [Memory.store] using h
  | cons d rest ih =>
    obtain ⟨a, b⟩ := d
    simp only [Memory.store] at h
    split at h
    · simpa using h
    · split at h
      · rcases List.mem_cons.1 h with h | h <;> simp [h]
      · rcases List.mem_cons.1 h with h | h
        · simp [h]
        · rcases ih h with h | h <;> simp [h]

theorem Memory.wf_store {m : Memory} (h : m.wf) (i : Nat) (v : Byte) : (m.store i v).wf := by
  induction m with
  | nil => simp [Memory.store, Memory.wf]
  | cons d rest ih =>
    obtain ⟨a, b⟩ := d
    have hrest : ∀ c ∈ rest, a < c.1 := (List.pairwise_cons.1 h).1
    simp only [Memory.store]
    split
    · refine List.pairwise_cons.2 ⟨fun c hc => ?_, h⟩
      rcases List.mem_cons.1 hc with rfl | hc
      · assumption
      · exact Nat.lt_trans ‹_› (hrest c hc)
    · split
      · subst i; exact List.pairwise_cons.2 ⟨hrest, h.of_cons⟩
      · refine List.pairwise_cons.2 ⟨fun c hc => ?_, ih h.of_cons⟩
        rcases Memory.mem_store hc with rfl | hc
        · show a < i; omega
        · exact hrest c hc

theorem Memory.below_store {m : Memory} {n : Nat} (h : m.below n) {i : Nat} (hi : i < n) (v : Byte) :
    (m.store i v).below n := by
  intro c hc
  rcases Memory.mem_store hc with rfl | hc
  · exact hi
  · exact h c hc

theorem Memory.byteAt_storeAll (m : Memory) (i : Nat) (bytes : List Byte) (j : Nat) :
    (m.storeAll i bytes).byteAt j =
      if h : i ≤ j ∧ j - i < bytes.length then some (bytes[j - i]'h.2) else m.byteAt j := by
  induction bytes generalizing m i with
  | nil => simp [Memory.storeAll]
  | cons b bs ih =>
    simp only [Memory.storeAll, ih, Memory.byteAt_store]
    by_cases hij : i = j
    · subst i; simp
    · by_cases h : i ≤ j ∧ j - i < (b :: bs).length
      · have h' : i + 1 ≤ j ∧ j - (i + 1) < bs.length := by simp at h; omega
        have e : j - i = (j - (i + 1)) + 1 := by omega
        rw [dif_pos h', dif_pos h]
        simp [e]
      · have h' : ¬ (i + 1 ≤ j ∧ j - (i + 1) < bs.length) := by simp at h ⊢; omega
        rw [dif_neg h', dif_neg h, if_neg hij]

theorem Memory.wf_storeAll {m : Memory} (h : m.wf) (i : Nat) (bytes : List Byte) : (m.storeAll i bytes).wf := by
  induction bytes generalizing m i with
  | nil => exact h
  | cons b bs ih => exact ih (Memory.wf_store h i b) (i + 1)

theorem Memory.below_storeAll {m : Memory} {n : Nat} (h : m.below n) {i : Nat} {bytes : List Byte}
    (hi : i + bytes.length ≤ n) : (m.storeAll i bytes).below n := by
  induction bytes generalizing m i with
  | nil => exact h
  | cons b bs ih =>
    simp at hi
    exact ih (Memory.below_store h (by omega) b) (by omega)

/-! ## Buffers -/

theorem Buffer.read_write (b : Buffer) (i j : Nat) (v : Byte) :
    (b.write i v).read j = if i = j then v else b.read j := by
  simp only [Buffer.read, Buffer.write, Memory.byteAt_store]
  split <;> simp

theorem Buffer.read_writeAll (b : Buffer) (i : Nat) (bytes : List Byte) (j : Nat) :
    (b.writeAll i bytes).read j =
      if h : i ≤ j ∧ j - i < bytes.length then bytes[j - i]'h.2 else b.read j := by
  simp only [Buffer.read, Buffer.writeAll, Memory.byteAt_storeAll]
  split <;> simp

@[simp] theorem Buffer.read_unspecified (d i : Nat) : (Buffer.unspecified d).read i = Config.freeByte d i := rfl

@[simp] theorem Buffer.unspecified_cells (d : Nat) : (Buffer.unspecified d).cells = [] := rfl

@[simp] theorem Buffer.unspecified_draw (d : Nat) : (Buffer.unspecified d).draw = d := rfl

@[simp] theorem Buffer.write_cells (b : Buffer) (i : Nat) (v : Byte) : (b.write i v).cells = b.cells.store i v := rfl

@[simp] theorem Buffer.write_draw (b : Buffer) (i : Nat) (v : Byte) : (b.write i v).draw = b.draw := rfl

@[simp] theorem Buffer.writeAll_cells (b : Buffer) (i : Nat) (bs : List Byte) :
    (b.writeAll i bs).cells = b.cells.storeAll i bs := rfl

@[simp] theorem Buffer.writeAll_draw (b : Buffer) (i : Nat) (bs : List Byte) : (b.writeAll i bs).draw = b.draw := rfl

/-! ## Slices -/

@[simp] theorem Buffer.slice_length (b : Buffer) (lo hi : Nat) : (b.slice lo hi).length = hi - lo := by
  simp [Buffer.slice]

theorem Buffer.slice_getElem (b : Buffer) (lo hi k : Nat) (h : k < (b.slice lo hi).length) :
    (b.slice lo hi)[k] = b.read (lo + k) := by
  simp [Buffer.slice]

theorem Buffer.slice_congr {b c : Buffer} {lo hi : Nat} (h : ∀ i, lo ≤ i → i < hi → c.read i = b.read i) :
    c.slice lo hi = b.slice lo hi := by
  apply List.ext_getElem
  · simp
  · intro k hk _
    simp at hk
    simp only [Buffer.slice_getElem]
    exact h _ (by omega) (by omega)

theorem Buffer.read_writeAll_in {b : Buffer} {bytes : List Byte} {i : Nat} (h : i < bytes.length) :
    (b.writeAll 0 bytes).read i = bytes[i] := by simp [Buffer.read_writeAll, h]

theorem Buffer.read_writeAll_out {b : Buffer} {bytes : List Byte} {lo i : Nat}
    (h : i < lo ∨ lo + bytes.length ≤ i) : (b.writeAll lo bytes).read i = b.read i := by
  rw [Buffer.read_writeAll, dif_neg (by omega)]

/-- What a sequence written from an index on reads back as. -/
theorem Buffer.slice_writeAll (b : Buffer) (lo : Nat) (bytes : List Byte) :
    (b.writeAll lo bytes).slice lo (lo + bytes.length) = bytes := by
  apply List.ext_getElem
  · simp
  · intro k hk hk'
    rw [Buffer.slice_getElem, Buffer.read_writeAll, dif_pos ⟨by omega, by omega⟩]
    congr 1; omega

/-- What a sequence written at index 0 reads back as. -/
theorem Buffer.slice_writeAll_zero (b : Buffer) (bytes : List Byte) :
    (b.writeAll 0 bytes).slice 0 bytes.length = bytes := by
  simpa using Buffer.slice_writeAll b 0 bytes

/-- A slice is the slice up to a point and the slice from there. -/
theorem Buffer.slice_append (b : Buffer) {lo mid hi : Nat} (h₁ : lo ≤ mid) (h₂ : mid ≤ hi) :
    b.slice lo hi = b.slice lo mid ++ b.slice mid hi := by
  have e : List.range' lo (hi - lo) = List.range' lo (mid - lo) ++ List.range' mid (hi - mid) := by
    have := List.range'_append_1 (s := lo) (m := mid - lo) (n := hi - mid)
    rw [show lo + (mid - lo) = mid by omega, show mid - lo + (hi - mid) = hi - lo by omega] at this
    exact this.symm
  simp [Buffer.slice, e]

end Sys2Proof.Machine
end

