-- ==== Sys2Proof/Laws/Commands.lean ====
section
/-! SUPPORT. For each command, the state it answers, case by case: what later proofs cite in place of unfolding a
meaning. And the one inversion: whatever a command does, it ends by writing `STATUS` over a state that is the one
before, changed in the command's own columns. -/

namespace Sys2Proof.Machine

variable {s t : State}

theorem exec_csclr (s : State) : exec .csclr s = .next ((s.setSums (0#8, 0#8)).endCommand none false) := rfl

theorem exec_csbyte (b : Byte) (s : State) :
    exec (.csbyte b) s = .next ((s.setSums (flStep s.sums b)).endCommand none false) := rfl

theorem exec_csmsg (s : State) : exec .csmsg s = .next ((s.setSums (flSums s.message)).endCommand none false) := rfl

theorem exec_encode_fits (h : (cobsEnc s.message).length ≤ s.cfg.pktMax) :
    exec .encode s =
      .next ((s.setPkt (s.pkt.writeAll 0 (cobsEnc s.message)) (cobsEnc s.message).length).endCommand none false) := by
  simp [exec, execEncode, succeed, Nat.not_lt.2 h]

theorem exec_encode_noSpace (h : s.cfg.pktMax < (cobsEnc s.message).length) :
    exec .encode s = .next (s.losePkt.endCommand (some .noSpace) false) := by
  simp [exec, execEncode, raise, h]

theorem exec_term_fits (h : s.pktLen < s.cfg.pktMax) :
    exec .term s = .next ((s.setPkt (s.pkt.write s.pktLen termByte) (s.pktLen + 1)).endCommand none false) := by
  simp [exec, execTerm, succeed, Nat.not_le.2 h]

theorem exec_term_noSpace (h : s.cfg.pktMax ≤ s.pktLen) :
    exec .term s = .next (s.endCommand (some .noSpace) false) := by
  simp [exec, execTerm, raise, h]

theorem exec_strip_found (h : 0 < s.pktLen) (hz : s.pkt.read (s.pktLen - 1) = termByte) :
    exec .strip s = .next ((s.setPkt s.pkt (s.pktLen - 1)).endCommand none false) := by
  simp [exec, execStrip, succeed, Nat.ne_of_gt h, hz]

theorem exec_strip_noTerm (h : s.pktLen = 0 ∨ s.pkt.read (s.pktLen - 1) ≠ termByte) :
    exec .strip s = .next (s.endCommand (some .noTerm) false) := by
  by_cases h0 : s.pktLen = 0
  · simp [exec, execStrip, raise, h0]
  · have hz := h.resolve_left h0
    simp [exec, execStrip, raise, h0, hz]

theorem exec_decode_ok {d : List Byte} (h : cobsDec s.packet s.cfg.msgMax = .ok d) :
    exec .decode s =
      .next ((s.setMsg (s.msg.writeAll 0 d) d.length).endCommand none (decide (s.pktLen = 0))) := by
  simp [exec, execDecode, succeed, h]

theorem exec_decode_error {e : CmdError} (h : cobsDec s.packet s.cfg.msgMax = .error e) :
    exec .decode s = .next (s.loseMsg.endCommand (some e) (decide (s.pktLen = 0))) := by
  simp [exec, execDecode, raise, h]

theorem exec_hdrput (s : State) :
    exec .hdrput s = .next ((s.setMsg (s.msg.writeAll 0 (packHdr s.outHeader)) hdrSize).endCommand none false) := rfl

theorem exec_finish_fits (h : s.msgLen + csumSize ≤ s.cfg.msgMax) :
    exec .finish s =
      .next (((s.setSums (flSums s.message)).setMsg
        (s.msg.writeAll s.msgLen [(flSums s.message).1, (flSums s.message).2])
        (s.msgLen + csumSize)).endCommand none false) := by
  simp [exec, execFinish, succeed, Nat.not_lt.2 h]

theorem exec_finish_noSpace (h : s.cfg.msgMax < s.msgLen + csumSize) :
    exec .finish s = .next (s.endCommand (some .noSpace) false) := by
  simp [exec, execFinish, raise, h]

theorem exec_hdrget_long (h : msgMin ≤ s.msgLen) :
    exec .hdrget s =
      .next ((s.setHeader (unpackHdr (s.msg.slice 0 hdrSize)).magic (unpackHdr (s.msg.slice 0 hdrSize)).version
        (unpackHdr (s.msg.slice 0 hdrSize)).seq (unpackHdr (s.msg.slice 0 hdrSize)).cmd).endCommand none false) := by
  simp [exec, execHdrget, succeed, Nat.not_lt.2 h]

theorem exec_hdrget_short (h : s.msgLen < msgMin) :
    exec .hdrget s = .next (s.endCommand (some .short) false) := by
  simp [exec, execHdrget, raise, h]

theorem exec_trlget_long (h : msgMin ≤ s.msgLen) :
    exec .trlget s =
      .next (((s.setRxCsum (unLE 16 (s.msg.slice (s.msgLen - csumSize) s.msgLen))).setSums
        (flSums (s.msg.slice 0 (s.msgLen - csumSize)))).endCommand none false) := by
  simp [exec, execTrlget, succeed, Nat.not_lt.2 h]

theorem exec_trlget_short (h : s.msgLen < msgMin) :
    exec .trlget s = .next (s.endCommand (some .short) false) := by
  simp [exec, execTrlget, raise, h]

/-- What one command can change before it ends: one case per success, one for an error that leaves everything, one for
each destination buffer lost. -/
inductive Effect : Instr → State → State → Prop
  | nothing (i : Instr) (s : State) : Effect i s s
  | csclr (s : State) : Effect .csclr s (s.setSums (0#8, 0#8))
  | csbyte (b : Byte) (s : State) : Effect (.csbyte b) s (s.setSums (flStep s.sums b))
  | csmsg (s : State) : Effect .csmsg s (s.setSums (flSums s.message))
  | encode (s : State) (fits : (cobsEnc s.message).length ≤ s.cfg.pktMax) :
      Effect .encode s (s.setPkt (s.pkt.writeAll 0 (cobsEnc s.message)) (cobsEnc s.message).length)
  | losePkt (s : State) : Effect .encode s s.losePkt
  | term (s : State) (fits : s.pktLen < s.cfg.pktMax) :
      Effect .term s (s.setPkt (s.pkt.write s.pktLen termByte) (s.pktLen + 1))
  | strip (s : State) (some : 0 < s.pktLen) : Effect .strip s (s.setPkt s.pkt (s.pktLen - 1))
  | decode (s : State) (d : List Byte) (decoded : cobsDec s.packet s.cfg.msgMax = .ok d) :
      Effect .decode s (s.setMsg (s.msg.writeAll 0 d) d.length)
  | loseMsg (s : State) : Effect .decode s s.loseMsg
  | hdrput (s : State) : Effect .hdrput s (s.setMsg (s.msg.writeAll 0 (packHdr s.outHeader)) hdrSize)
  | finish (s : State) (fits : s.msgLen + csumSize ≤ s.cfg.msgMax) :
      Effect .finish s ((s.setSums (flSums s.message)).setMsg
        (s.msg.writeAll s.msgLen [(flSums s.message).1, (flSums s.message).2]) (s.msgLen + csumSize))
  | hdrget (s : State) (h : Header) : Effect .hdrget s (s.setHeader h.magic h.version h.seq h.cmd)
  | trlget (s : State) (v : Half) (bytes : List Byte) :
      Effect .trlget s ((s.setRxCsum v).setSums (flSums bytes))

namespace Effect

variable {i : Instr} {u : State}

theorem keeps_cfg (h : Effect i s u) : u.cfg = s.cfg := by cases h <;> rfl

theorem keeps_seq (h : Effect i s u) : u.seq = s.seq := by cases h <;> rfl

theorem keeps_command (h : Effect i s u) : u.command = s.command := by cases h <;> rfl

theorem keeps_events (h : Effect i s u) : u.events = s.events := by cases h <;> rfl

theorem keeps_response (h : Effect i s u) : u.response = s.response := by cases h <;> rfl

end Effect

/-- What a command that ends in an error has done: nothing, or it has lost its destination buffer (R122). -/
inductive Failed : Instr → State → State → Prop
  | nothing (i : Instr) (s : State) (encode : i ≠ .encode) (decode : i ≠ .decode) : Failed i s s
  | losePkt (s : State) : Failed .encode s s.losePkt
  | loseMsg (s : State) : Failed .decode s s.loseMsg

/-- Every command answers a next state: its effect, and `STATUS` written over it, with `EMPTY` set by a `DECODE` of
nothing alone, and an error leaving what R122 says. -/
theorem exec_ends_with (i : Instr) (s : State) :
    ∃ u o e, exec i s = .next (u.endCommand o e) ∧ Effect i s u ∧ (e = true ↔ i = .decode ∧ s.pktLen = 0) ∧
      ∀ x, o = some x → Failed i s u := by
  cases i with
  | csclr => exact ⟨_, _, _, exec_csclr s, .csclr s, by simp, nofun⟩
  | csbyte b => exact ⟨_, _, _, exec_csbyte b s, .csbyte b s, by simp, nofun⟩
  | csmsg => exact ⟨_, _, _, exec_csmsg s, .csmsg s, by simp, nofun⟩
  | encode =>
    by_cases h : (cobsEnc s.message).length ≤ s.cfg.pktMax
    · exact ⟨_, _, _, exec_encode_fits h, .encode s h, by simp, nofun⟩
    · exact ⟨_, _, _, exec_encode_noSpace (by omega), .losePkt s, by simp, fun _ _ => .losePkt s⟩
  | term =>
    by_cases h : s.pktLen < s.cfg.pktMax
    · exact ⟨_, _, _, exec_term_fits h, .term s h, by simp, nofun⟩
    · exact ⟨_, _, _, exec_term_noSpace (by omega), .nothing _ s, by simp, fun _ _ => .nothing _ s nofun nofun⟩
  | strip =>
    by_cases h : 0 < s.pktLen ∧ s.pkt.read (s.pktLen - 1) = termByte
    · exact ⟨_, _, _, exec_strip_found h.1 h.2, .strip s h.1, by simp, nofun⟩
    · refine ⟨_, _, _, exec_strip_noTerm ?_, .nothing _ s, by simp, fun _ _ => .nothing _ s nofun nofun⟩
      by_cases h0 : s.pktLen = 0
      · exact .inl h0
      · exact .inr fun hz => h ⟨by omega, hz⟩
  | decode =>
    cases h : cobsDec s.packet s.cfg.msgMax with
    | ok d => exact ⟨_, _, _, exec_decode_ok h, .decode s d h, by simp, nofun⟩
    | error e => exact ⟨_, _, _, exec_decode_error h, .loseMsg s, by simp, fun _ _ => .loseMsg s⟩
  | hdrput => exact ⟨_, _, _, exec_hdrput s, .hdrput s, by simp, nofun⟩
  | finish =>
    by_cases h : s.msgLen + csumSize ≤ s.cfg.msgMax
    · exact ⟨_, _, _, exec_finish_fits h, .finish s h, by simp, nofun⟩
    · exact ⟨_, _, _, exec_finish_noSpace (by omega), .nothing _ s, by simp, fun _ _ => .nothing _ s nofun nofun⟩
  | hdrget =>
    by_cases h : msgMin ≤ s.msgLen
    · exact ⟨_, _, _, exec_hdrget_long h, .hdrget s (unpackHdr (s.msg.slice 0 hdrSize)), by simp, nofun⟩
    · exact ⟨_, _, _, exec_hdrget_short (by omega), .nothing _ s, by simp, fun _ _ => .nothing _ s nofun nofun⟩
  | trlget =>
    by_cases h : msgMin ≤ s.msgLen
    · exact ⟨_, _, _, exec_trlget_long h, .trlget s _ _, by simp, nofun⟩
    · exact ⟨_, _, _, exec_trlget_short (by omega), .nothing _ s, by simp, fun _ _ => .nothing _ s nofun nofun⟩

/-- Every command answers a next state: its effect, and `STATUS` written over it. -/
theorem exec_ends (i : Instr) (s : State) :
    ∃ u o e, exec i s = .next (u.endCommand o e) ∧ Effect i s u :=
  let ⟨u, o, e, he, hu, _⟩ := exec_ends_with i s
  ⟨u, o, e, he, hu⟩

/-- The inversion of `exec`. -/
theorem exec_cases {i : Instr} (h : exec i s = .next t) : ∃ u o e, t = u.endCommand o e ∧ Effect i s u := by
  obtain ⟨u, o, e, he, hu⟩ := exec_ends i s
  rw [he] at h
  exact ⟨u, o, e, (Host.Outcome.next.inj h).symm, hu⟩

end Sys2Proof.Machine
end

