-- ==== Sys2Proof/Laws/Checksum.lean ====
section
/-! SUPPORT. The Fletcher functions: the step as arithmetic, the bound both accumulators keep (spec/40_checksum.md R75),
the fold, and `csumOf` as a number. -/

namespace Sys2Proof.Machine

theorem flStep_fst (p : Byte × Byte) (b : Byte) : (flStep p b).1.toNat = (p.1.toNat + b.toNat) % 255 := by
  simp only [flStep, csumMod, BitVec.toNat_ofNat]
  omega

theorem flStep_snd (p : Byte × Byte) (b : Byte) :
    (flStep p b).2.toNat = (p.2.toNat + (p.1.toNat + b.toNat) % 255) % 255 := by
  simp only [flStep, csumMod, BitVec.toNat_ofNat]
  omega

theorem flStep_le (p : Byte × Byte) (b : Byte) : (flStep p b).1.toNat ≤ 254 ∧ (flStep p b).2.toNat ≤ 254 := by
  rw [flStep_fst, flStep_snd]; omega

@[simp] theorem flFold_nil (p : Byte × Byte) : flFold p [] = p := rfl

@[simp] theorem flFold_cons (p : Byte × Byte) (b : Byte) (t : List Byte) :
    flFold p (b :: t) = flFold (flStep p b) t := rfl

theorem flFold_le {p : Byte × Byte} (h₁ : p.1.toNat ≤ 254) (h₂ : p.2.toNat ≤ 254) (s : List Byte) :
    (flFold p s).1.toNat ≤ 254 ∧ (flFold p s).2.toNat ≤ 254 := by
  induction s generalizing p with
  | nil => exact ⟨h₁, h₂⟩
  | cons b t ih => exact ih (flStep_le p b).1 (flStep_le p b).2

theorem flSums_le (s : List Byte) : (flSums s).1.toNat ≤ 254 ∧ (flSums s).2.toNat ≤ 254 :=
  flFold_le (by decide) (by decide) s

theorem csumOf_toNat (p : Byte × Byte) : (csumOf p).toNat = 256 * p.2.toNat + p.1.toNat := by
  have h₁ := p.1.isLt
  have h₂ := p.2.isLt
  simp only [csumOf, BitVec.truncate_eq_setWidth, BitVec.toNat_or, BitVec.toNat_shiftLeft, BitVec.toNat_setWidth,
    Nat.shiftLeft_eq]
  rw [Nat.mod_eq_of_lt (show p.2.toNat < 2 ^ 16 by omega), Nat.mod_eq_of_lt (show p.1.toNat < 2 ^ 16 by omega),
    Nat.mod_eq_of_lt (show p.2.toNat * 2 ^ 8 < 2 ^ 16 by omega), Nat.mul_comm,
    ← Nat.two_pow_add_eq_or_of_lt h₁]

end Sys2Proof.Machine
end

