-- ==== Sys2Proof/Laws/Codec.lean ====
section
/-! SUPPORT. Little-endian sequences and headers: lengths, single bytes, and what a byte sequence denotes. -/

namespace Sys2Proof.Machine

@[simp] theorem leBytes_length {w : Nat} (n : Nat) (v : BitVec w) : (leBytes n v).length = n := by simp [leBytes]

theorem leBytes_getElem {w : Nat} (n : Nat) (v : BitVec w) (k : Nat) (h : k < (leBytes n v).length) :
    (leBytes n v)[k] = v.extractLsb' (8 * k) 8 := by simp [leBytes]

theorem leNat_lt (s : List Byte) : leNat s < 256 ^ s.length := by
  induction s with
  | nil => simp [leNat]
  | cons b t ih =>
    have := b.isLt
    simp only [leNat, List.length_cons, Nat.pow_succ]
    omega

theorem unLE_toNat {w : Nat} {s : List Byte} (h : 256 ^ s.length ≤ 2 ^ w) : (unLE w s).toNat = leNat s := by
  rw [unLE, BitVec.toNat_ofNat, Nat.mod_eq_of_lt (Nat.lt_of_lt_of_le (leNat_lt s) h)]

theorem leBytes_succ {w : Nat} (n : Nat) (v : BitVec w) :
    leBytes (n + 1) v = v.extractLsb' 0 8 :: leBytes n (v >>> 8) := by
  simp only [leBytes, List.range_succ_eq_map, List.map_cons, List.map_map]
  congr 1
  apply List.map_congr_left
  intro k _
  apply BitVec.eq_of_getLsbD_eq
  intro i hi
  simp only [Function.comp_apply, BitVec.getLsbD_extractLsb', BitVec.getLsbD_ushiftRight]
  congr 2; omega

theorem leNat_leBytes {w : Nat} (n : Nat) (v : BitVec w) : leNat (leBytes n v) = v.toNat % 256 ^ n := by
  induction n generalizing v with
  | zero => simp [leBytes, leNat, Nat.mod_one]
  | succ n ih =>
    rw [leBytes_succ, leNat, ih, show (256 : Nat) ^ (n + 1) = 256 * 256 ^ n by rw [Nat.pow_succ, Nat.mul_comm],
      Nat.mod_mul]
    simp [Nat.shiftRight_eq_div_pow]

theorem unLE_leBytes {w : Nat} (n : Nat) (v : BitVec w) (h : 2 ^ w ≤ 256 ^ n) : unLE w (leBytes n v) = v := by
  apply BitVec.eq_of_toNat_eq
  rw [unLE, leNat_leBytes, BitVec.toNat_ofNat, Nat.mod_eq_of_lt (a := v.toNat) (Nat.lt_of_lt_of_le v.isLt h),
    Nat.mod_eq_of_lt v.isLt]

theorem leBytes_unLE {w : Nat} (l : List Byte) (h : w = 8 * l.length) : leBytes l.length (unLE w l) = l := by
  subst h
  induction l with
  | nil => rfl
  | cons b t ih =>
    have hp : ∀ n, 256 ^ n ≤ 2 ^ (8 * n) := fun n => by rw [show (256 : Nat) = 2 ^ 8 by rfl, ← Nat.pow_mul]
    have tn : (unLE (8 * (t.length + 1)) (b :: t)).toNat = b.toNat + 256 * leNat t := unLE_toNat (hp _)
    have tt : (unLE (8 * t.length) t).toNat = leNat t := unLE_toNat (hp _)
    have hb := b.isLt
    rw [List.length_cons, leBytes_succ]
    congr 1
    · apply BitVec.eq_of_toNat_eq
      rw [BitVec.extractLsb'_toNat, tn, Nat.shiftRight_zero]; omega
    · conv_rhs => rw [← ih]
      simp only [leBytes]
      apply List.map_congr_left
      intro k _
      apply BitVec.eq_of_toNat_eq
      simp only [BitVec.extractLsb'_toNat, BitVec.toNat_ushiftRight, tn, tt]
      congr 2
      rw [Nat.shiftRight_eq_div_pow]; omega

/-- Byte `k` of the value a little-endian sequence denotes is the sequence's byte `k`. -/
theorem unLE_byte {w : Nat} {l : List Byte} (h : w = 8 * l.length) {k : Nat} (hk : k < l.length) :
    (unLE w l).extractLsb' (8 * k) 8 = l[k] := by
  conv_rhs => rw [List.getElem_of_eq (leBytes_unLE l h).symm hk]
  rw [leBytes_getElem]

@[simp] theorem packHdr_length (h : Header) : (packHdr h).length = 17 := by simp [packHdr]

end Sys2Proof.Machine
end

