-- ==== Sys2Proof/Laws/Framer.lean ====
section
/-! SUPPORT. The framer's scans: the encoder's defining cases, and that the decoder's fuel does not matter. -/

namespace Sys2Proof.Machine

@[simp] theorem cobsEncFrom_nil (run : List Byte) : cobsEncFrom run [] = runRecord run := rfl

theorem cobsEncFrom_zero (run rest : List Byte) :
    cobsEncFrom run (0x00#8 :: rest) = runRecord run ++ cobsEncFrom [] rest := by
  simp [cobsEncFrom, termByte]

theorem cobsEncFrom_full {run : List Byte} {b : Byte} (hb : b ≠ 0x00#8) (h : run.length + 1 = 254)
    (rest : List Byte) : cobsEncFrom run (b :: rest) = runRecord (run ++ [b]) ++ cobsEncFrom [] rest := by
  simp [cobsEncFrom, termByte, runMax, hb, h]

theorem cobsEncFrom_more {run : List Byte} {b : Byte} (hb : b ≠ 0x00#8) (h : run.length + 1 ≠ 254)
    (rest : List Byte) : cobsEncFrom run (b :: rest) = cobsEncFrom (run ++ [b]) rest := by
  simp [cobsEncFrom, termByte, runMax, hb, h]

@[simp] theorem runRecord_length (run : List Byte) : (runRecord run).length = run.length + 1 := by simp [runRecord]

@[simp] theorem cobsDecFrom_nil (cap fuel : Nat) (out : List Byte) : cobsDecFrom cap fuel [] out = .ok out := by
  cases fuel <;> rfl

/-- Enough fuel is enough: a record takes at least one byte of the input. -/
theorem cobsDecFrom_fuel (cap : Nat) (f g : Nat) (rest out : List Byte) (hf : rest.length ≤ f)
    (hg : rest.length ≤ g) : cobsDecFrom cap f rest out = cobsDecFrom cap g rest out := by
  induction f generalizing g rest out with
  | zero =>
    have : rest = [] := List.eq_nil_of_length_eq_zero (by omega)
    subst this; simp
  | succ f ih =>
    cases rest with
    | nil => simp
    | cons code tail =>
      cases g with
      | zero => simp at hg
      | succ g =>
        simp only [List.length_cons] at hf hg
        have hd : (tail.drop (code.toNat - 1)).length ≤ tail.length := by simp
        simp only [cobsDecFrom]
        repeat' split
        all_goals first | rfl | exact ih _ _ _ (by omega) (by omega)

end Sys2Proof.Machine
end

