-- ==== Sys2Proof/Laws/Step.lean ====
section
/-! SUPPORT. The bus and the step: one equation per kind of event, the register map both ways, the windows, and the one
inversion of a step. -/

namespace Sys2Proof.Machine

variable {s t : State} {rest : List BusEvent}

/-! ## The address map -/

@[simp] theorem regAt_offset (r : Reg) : regAt r.offset = some r := by cases r <;> rfl

theorem regAt_some {addr : Nat} {r : Reg} (h : regAt addr = some r) : addr = r.offset := by
  unfold regAt at h
  split at h <;> first | (cases h; rfl) | cases h

theorem regOffset_lt (r : Reg) : r.offset < 0x50 := by cases r <;> decide

theorem regOffset_mod (r : Reg) : r.offset % 4 = 0 := by cases r <;> rfl

theorem State.windowAt_in (legal : s.cfg.legal = true) {b : Buf} {addr : Nat} (h : InWindow s b addr) :
    s.windowAt addr = some (b, addr - b.base) := by
  simp only [Config.legal, Bool.and_eq_true, decide_eq_true_eq] at legal
  obtain ⟨h₁, h₂⟩ := h
  cases b with
  | msg =>
    simp only [Buf.base, bufferSize] at h₁ h₂ ⊢
    simp [State.windowAt, h₁, h₂]
  | pkt =>
    simp only [Buf.base, bufferSize, pktBase] at h₁ h₂ ⊢
    have hn : ¬ addr < 0x10000 + s.cfg.msgMax := by omega
    simp [State.windowAt, msgBase, pktBase, h₁, h₂, hn]

theorem State.windowAt_some {addr i : Nat} {b : Buf} (h : s.windowAt addr = some (b, i)) :
    InWindow s b addr ∧ i = addr - b.base := by
  unfold State.windowAt at h
  split at h
  · cases h; exact ⟨‹_›, rfl⟩
  · split at h
    · cases h; exact ⟨‹_›, rfl⟩
    · cases h

theorem State.windowAt_none {addr : Nat} (h : ∀ b, ¬ InWindow s b addr) : s.windowAt addr = none := by
  cases e : s.windowAt addr with
  | none => rfl
  | some p => exact absurd (State.windowAt_some (b := p.1) (i := p.2) e).1 (h _)

/-! ## One equation per kind of event -/

theorem step_idle (h : s.events = []) : step s = .next s := by simp [step, nextEvent, h]

theorem step_event {e : BusEvent} (h : s.events = e :: rest) : step s = runEvent { s with events := rest } e := by
  simp [step, nextEvent, h]

theorem memWrite_cmd (s : State) (w : Nat) :
    memWrite s 0x00 4 w = respondOkay (runCommandWord (BitVec.ofNat 32 w) s) := rfl

theorem memWrite_reg {r : Reg} (hr : r ≠ .cmd) (s : State) (v : Nat) :
    memWrite s r.offset 4 v = .next (memWriteReg s r (BitVec.ofNat 32 v)) := by
  cases r <;> first | rfl | exact absurd rfl hr

theorem memWrite_byte (s : State) (addr v : Nat) :
    memWrite s addr 1 v = .next (memWriteWindow s addr (BitVec.ofNat 8 v)) := rfl

theorem runCommandWord_ok {w : Word} {i : Instr} (h : decodeWord w = .ok i) (s : State) :
    runCommandWord w s = exec i s := by simp [runCommandWord, h]

theorem runCommandWord_illegal {w : Word} (h : ∀ i, decodeWord w ≠ .ok i) (s : State) :
    runCommandWord w s = .next (s.endCommand (some .illegal) false) := by
  unfold runCommandWord
  split
  · exact absurd ‹_› (h _)
  · rfl

/-- What a register write leaves: everything but `MSG_LEN`, `PKT_LEN`, `SEQ` and `COMMAND`. -/
theorem writeReg_frame {r : Reg} {v : Word} (h : s.writeReg r v = some t) :
    t = { s with msgLen := t.msgLen, pktLen := t.pktLen, seq := t.seq, command := t.command } := by
  cases r <;> simp only [State.writeReg] at h
  case msgLen | pktLen | command => split at h <;> cases h; rfl
  case seqLo | seqHi => cases h; rfl
  all_goals cases h

/-- A register write keeps both lengths within their buffers. -/
theorem writeReg_lengths {r : Reg} {v : Word} (h : s.writeReg r v = some t) :
    (s.msgLen ≤ s.cfg.msgMax → t.msgLen ≤ s.cfg.msgMax) ∧ (s.pktLen ≤ s.cfg.pktMax → t.pktLen ≤ s.cfg.pktMax) := by
  cases r <;> simp only [State.writeReg] at h
  case msgLen => split at h <;> cases h; exact ⟨fun _ => ‹_›, id⟩
  case pktLen => split at h <;> cases h; exact ⟨id, fun _ => ‹_›⟩
  case command => split at h <;> cases h; exact ⟨id, id⟩
  case seqLo | seqHi => cases h; exact ⟨id, id⟩
  all_goals cases h

/-! ## Inversion -/

/-- What one bus access can do to the block, the response recorded. -/
inductive AccessEffect : State → State → Prop
  | answered (s : State) (r : Response) : AccessEffect s (s.respond r)
  | command (i : Instr) (s u : State) (o : Option CmdError) (e : Bool) (effect : Effect i s u) :
      AccessEffect s ((u.endCommand o e).respond .okay)
  | register (s t : State) (r : Reg) (v : Word) (written : s.writeReg r v = some t) :
      AccessEffect s (t.respond .okay)
  | window (s : State) (b : Buf) (i : Nat) (v : Byte) (inside : i < bufferSize s.cfg b) :
      AccessEffect s ((s.pokeByte b i v).respond .okay)

theorem runCommandWord_ends (w : Word) (s : State) :
    ∃ i u o e, runCommandWord w s = .next (u.endCommand o e) ∧ Effect i s u := by
  cases h : decodeWord w with
  | ok i =>
    obtain ⟨u, o, e, he, hu⟩ := exec_ends i s
    exact ⟨i, u, o, e, by rw [runCommandWord_ok h, he], hu⟩
  | error x =>
    exact ⟨.csclr, s, _, _, runCommandWord_illegal (fun i hi => by rw [h] at hi; cases hi) s, .nothing _ s⟩

theorem memWrite_effect (s : State) (addr n v : Nat) : ∃ t, memWrite s addr n v = .next t ∧ AccessEffect s t := by
  by_cases h4 : n = 4
  · subst h4
    cases hr : regAt addr with
    | none => exact ⟨s.respond .error, by simp [memWrite, hr], .answered s _⟩
    | some r =>
      obtain rfl := regAt_some hr
      by_cases hc : r = .cmd
      · subst hc
        obtain ⟨i, u, o, e, he, hu⟩ := runCommandWord_ends (BitVec.ofNat 32 v) s
        exact ⟨_, by rw [Reg.offset, memWrite_cmd, he]; rfl, .command i s u o e hu⟩
      · rw [memWrite_reg hc]
        cases hw : s.writeReg r (BitVec.ofNat 32 v) with
        | none => exact ⟨_, rfl, by simp only [memWriteReg, hw]; exact .answered s _⟩
        | some t => exact ⟨_, rfl, by simp only [memWriteReg, hw]; exact .register s t r _ hw⟩
  · by_cases h1 : n = 1
    · subst h1
      rw [memWrite_byte]
      cases hw : s.windowAt addr with
      | none => exact ⟨_, rfl, by simp only [memWriteWindow, hw]; exact .answered s _⟩
      | some p =>
        obtain ⟨b, i⟩ := p
        obtain ⟨⟨h₁, h₂⟩, rfl⟩ := State.windowAt_some hw
        exact ⟨_, rfl, by simp only [memWriteWindow, hw]; exact .window s b _ _ (by omega)⟩
    · exact ⟨s.respond .error, by simp [memWrite, h4, h1], .answered s _⟩

/-- The inversion of `step`: nothing was issued and nothing changed, or the oldest event was taken and did one of the
things of `AccessEffect`, or it was the external reset. -/
theorem step_cases (h : step s = .next t) :
    (s.events = [] ∧ t = s) ∨
    ∃ e rest, s.events = e :: rest ∧
      ((e ≠ .externalReset ∧ AccessEffect { s with events := rest } t) ∨
        (e = .externalReset ∧ t = ({ s with events := rest } : State).externalReset)) := by
  cases he : s.events with
  | nil => rw [step_idle he] at h; exact .inl ⟨rfl, (Host.Outcome.next.inj h).symm⟩
  | cons e rest =>
    refine .inr ⟨e, rest, rfl, ?_⟩
    rw [step_event he] at h
    cases e with
    | read addr n => cases Host.Outcome.next.inj h; exact .inl ⟨nofun, .answered _ _⟩
    | write addr n v =>
      obtain ⟨u, hu, hb⟩ := memWrite_effect { s with events := rest } addr n v
      rw [show runEvent { s with events := rest } (.write addr n v) = .next u from hu] at h
      cases Host.Outcome.next.inj h; exact .inl ⟨nofun, hb⟩
    | externalReset => cases Host.Outcome.next.inj h; exact .inr ⟨rfl, rfl⟩

/-- Commands one after another, taken apart. -/
theorem runCommands_cons {i : Instr} {is : List Instr} (h : exec i s = .next t) :
    runCommands (i :: is) s = runCommands is t := by simp [runCommands, h]

/-- Steps one after another, taken apart. -/
theorem runSteps_succ {n : Nat} (h : step s = .next t) : runSteps (n + 1) s = runSteps n t := by simp [runSteps, h]

/-- One step, then the rest of the run. -/
theorem runSteps_then {n : Nat} {p : State → Prop} (h : step s = .next t) (k : ∃ u, runSteps n t = .next u ∧ p u) :
    ∃ u, runSteps (n + 1) s = .next u ∧ p u := by
  rw [runSteps_succ h]; exact k

/-- Steps put together. -/
theorem runSteps_add {m n : Nat} (h : runSteps m s = .next t) : runSteps (m + n) s = runSteps n t := by
  induction m generalizing s with
  | zero => cases h; simp
  | succ m ih =>
    rw [Nat.succ_add]
    simp only [runSteps] at h ⊢
    split at h
    · exact ih h
    · cases h
    · cases h

/-- Some steps, then the rest of the run. -/
theorem runSteps_add_then {m n : Nat} {p : State → Prop} (h : runSteps m s = .next t)
    (k : ∃ u, runSteps n t = .next u ∧ p u) : ∃ u, runSteps (m + n) s = .next u ∧ p u := by
  rw [runSteps_add h]; exact k

end Sys2Proof.Machine
end

