-- ==== Sys2Proof/Laws/Frames.lean ====
section
/-! SUPPORT. What the commands answer, in the terms of Safety.lean: how `STATUS` ends, and for each command that a
sequence of commands is made of, the message or the packet it leaves. -/

namespace Sys2Proof.Machine

variable {s : State}

theorem endsWell_endCommand (s : State) : EndsWell (s.endCommand none false) := ⟨by simp, by simp, by simp⟩

theorem endsIn_endCommand (s : State) (e : CmdError) : EndsIn e (s.endCommand (some e) false) :=
  ⟨by simp, by simp, by simp⟩

/-- Writing `STATUS` alone keeps everything else. -/
theorem keepsAllButStatus_endCommand (s : State) (o : Option CmdError) (e : Bool) :
    KeepsAllButStatus s (s.endCommand o e) := by
  simp [KeepsAllButStatus, KeepsMsg, KeepsMsgBytes, KeepsPkt, KeepsPktBytes, KeepsOperands, KeepsSums, KeepsRxCsum,
    KeepsHeader]

/-- A slice that two buffers share, byte by byte. -/
theorem Buffer.read_of_slice_eq {b c : Buffer} {n : Nat} (h : c.slice 0 n = b.slice 0 n) :
    ∀ i, i < n → c.read i = b.read i := by
  intro i hi
  have := congrArg (fun l => l[i]?) h
  simpa [Buffer.slice, List.getElem?_range', hi] using this

@[simp] theorem State.message_length (s : State) : s.message.length = s.msgLen := by simp [State.message]

@[simp] theorem State.packet_length (s : State) : s.packet.length = s.pktLen := by simp [State.packet]

/-! ## What each command leaves, as sequences of bytes -/

theorem exec_encode_packet (h : (cobsEnc s.message).length ≤ s.cfg.pktMax) :
    ∃ t, exec .encode s = .next t ∧ EndsWell t ∧ t.packet = cobsEnc s.message ∧
      t.pktLen = (cobsEnc s.message).length ∧ t.message = s.message ∧ t.msgLen = s.msgLen ∧
      KeepsOperands s t ∧ KeepsPort s t :=
  ⟨_, exec_encode_fits h, endsWell_endCommand _, Buffer.slice_writeAll_zero _ _, rfl, rfl, rfl, ⟨rfl, rfl, rfl⟩, rfl,
    rfl⟩

theorem exec_term_packet (h : s.pktLen < s.cfg.pktMax) :
    ∃ t, exec .term s = .next t ∧ EndsWell t ∧ t.packet = s.packet ++ [0x00#8] ∧ t.pktLen = s.pktLen + 1 ∧
      t.message = s.message ∧ t.msgLen = s.msgLen ∧ KeepsOperands s t ∧ KeepsPort s t := by
  refine ⟨_, exec_term_fits h, endsWell_endCommand _, ?_, rfl, rfl, rfl, ⟨rfl, rfl, rfl⟩, rfl, rfl⟩
  show (s.pkt.write s.pktLen termByte).slice 0 (s.pktLen + 1) = _
  rw [Buffer.slice_append _ (Nat.zero_le s.pktLen) (Nat.le_succ _)]
  congr 1
  · apply Buffer.slice_congr; intro i _ hi; rw [Buffer.read_write, if_neg (by omega)]
  · simp [Buffer.slice, Buffer.read_write, termByte]

theorem exec_strip_packet {p : List Byte} (h : s.packet = p ++ [0x00#8]) :
    ∃ t, exec .strip s = .next t ∧ EndsWell t ∧ t.packet = p ∧ t.message = s.message ∧ t.msgLen = s.msgLen ∧
      KeepsOperands s t ∧ KeepsPort s t := by
  have hl : s.pktLen = p.length + 1 := by have := congrArg List.length h; simpa using this
  have hs : s.packet = s.pkt.slice 0 p.length ++ [s.pkt.read p.length] := by
    rw [State.packet, hl, Buffer.slice_append _ (Nat.zero_le p.length) (Nat.le_succ _)]; simp [Buffer.slice]
  have hp := List.append_inj' (hs.symm.trans h) rfl
  have hz : s.pkt.read (s.pktLen - 1) = termByte := by rw [hl]; simpa [termByte] using hp.2
  refine ⟨_, exec_strip_found (by omega) hz, endsWell_endCommand _, ?_, rfl, rfl, ⟨rfl, rfl, rfl⟩, rfl, rfl⟩
  show s.pkt.slice 0 (s.pktLen - 1) = p
  rw [hl]; exact hp.1

theorem exec_decode_message {m : List Byte} (h : cobsDec s.packet s.cfg.msgMax = .ok m) (some : 0 < s.pktLen) :
    ∃ t, exec .decode s = .next t ∧ EndsWell t ∧ t.message = m ∧ t.msgLen = m.length ∧ KeepsOperands s t ∧
      KeepsPort s t :=
  ⟨_, exec_decode_ok h, by simpa [Nat.ne_of_gt some] using endsWell_endCommand _, Buffer.slice_writeAll_zero _ _, rfl,
    ⟨rfl, rfl, rfl⟩, rfl, rfl⟩

theorem exec_finish_message (h : s.msgLen + 2 ≤ s.cfg.msgMax) :
    ∃ t, exec .finish s = .next t ∧ EndsWell t ∧
      t.message = s.message ++ [(flSums s.message).1, (flSums s.message).2] ∧ t.msgLen = s.msgLen + 2 ∧
      KeepsOperands s t ∧ KeepsPort s t := by
  refine ⟨_, exec_finish_fits h, endsWell_endCommand _, ?_, rfl, ⟨rfl, rfl, rfl⟩, rfl, rfl⟩
  show (s.msg.writeAll _ _).slice 0 (s.msgLen + 2) = _
  have hw := Buffer.slice_writeAll s.msg s.msgLen [(flSums s.message).1, (flSums s.message).2]
  simp only [List.length_cons, List.length_nil, Nat.zero_add] at hw
  rw [Buffer.slice_append _ (Nat.zero_le s.msgLen) (Nat.le_add_right _ 2), hw]
  congr 1
  exact Buffer.slice_congr fun i _ hi => Buffer.read_writeAll_out (.inl hi)

theorem exec_hdrget_header (h : 19 ≤ s.msgLen) :
    ∃ t, exec .hdrget s = .next t ∧ EndsWell t ∧
      (⟨t.hMagic, t.hVersion, t.hSeq, t.hCmd⟩ : Header) = unpackHdr (s.msg.slice 0 17) ∧
      t.msg = s.msg ∧ t.msgLen = s.msgLen ∧ t.rxCsum = s.rxCsum ∧ t.csum = s.csum ∧ KeepsOperands s t ∧
      KeepsPort s t := by
  have he := exec_hdrget_long h
  rw [show hdrSize = 17 from rfl] at he
  generalize unpackHdr (s.msg.slice 0 17) = hd at he
  exact ⟨_, he, endsWell_endCommand _, rfl, rfl, rfl, rfl, rfl, ⟨rfl, rfl, rfl⟩, rfl, rfl⟩

theorem exec_trlget_trailer (h : 19 ≤ s.msgLen) :
    ∃ t, exec .trlget s = .next t ∧ EndsWell t ∧ t.rxCsum = unLE 16 (s.msg.slice (s.msgLen - 2) s.msgLen) ∧
      t.csum = fl16 (s.msg.slice 0 (s.msgLen - 2)) ∧ t.msg = s.msg ∧ t.msgLen = s.msgLen ∧ KeepsHeader s t ∧
      KeepsOperands s t ∧ KeepsPort s t :=
  ⟨_, exec_trlget_long h, endsWell_endCommand _, rfl, rfl, rfl, rfl, ⟨rfl, rfl, rfl, rfl⟩, ⟨rfl, rfl, rfl⟩, rfl, rfl⟩

end Sys2Proof.Machine
end

