-- ==== Sys2Proof/Laws/PerInstr.lean ====
section
/-! SUPPORT. One family of statements made per command: its word carries its operation code in bits 7:0, its immediate in
bits 15:8 and zeros above, and those fields are legal (spec/30_encoding.md R50, R51, R52). -/

namespace Sys2Proof.Laws.Opcode

/-- R50 of one command: taking its word apart gives the fields it was written with, and they are legal. -/
def Statement (i : Instr) : Prop := commandFields (encode i) = i.fields ∧ i.wellFormed = true

theorem csclr : Statement .csclr := by constructor <;> rfl

theorem csbyte (imm8 : Byte) : Statement (.csbyte imm8) := by
  constructor
  · revert imm8; decide
  · rfl

theorem csmsg : Statement .csmsg := by constructor <;> rfl

theorem encode : Statement .encode := by constructor <;> rfl

theorem term : Statement .term := by constructor <;> rfl

theorem strip : Statement .strip := by constructor <;> rfl

theorem decode : Statement .decode := by constructor <;> rfl

theorem hdrput : Statement .hdrput := by constructor <;> rfl

theorem finish : Statement .finish := by constructor <;> rfl

theorem hdrget : Statement .hdrget := by constructor <;> rfl

theorem trlget : Statement .trlget := by constructor <;> rfl

end Sys2Proof.Laws.Opcode
end

