-- ==== Sys2Proof/Laws/Script.lean ====
section
/-! SUPPORT. The host script's statements as steps: one equation per kind of event, and the two loads of
spec/30_encoding.md R62 run to their end. -/

namespace Sys2Proof.Machine

variable {s t : State} {rest : List BusEvent}

theorem decodeWord_encode (i : Instr) : decodeWord (encode i) = .ok i := by
  cases i with
  | csbyte b => rw [decodeWord, (Laws.Opcode.csbyte b).1]; rfl
  | _ => rfl

/-- A command issued by its word. -/
theorem step_issue {i : Instr} (h : s.events = commandEvent (encode i).toNat :: rest)
    (he : exec i { s with events := rest } = .next t) : step s = .next (t.respond .okay) := by
  rw [step_event h]
  show memWrite _ 0x00 4 _ = _
  rw [memWrite_cmd, BitVec.ofNat_toNat, BitVec.setWidth_eq, runCommandWord_ok (decodeWord_encode i), he]
  rfl

/-- A register write that is accepted. -/
theorem step_writeReg {r : Reg} {v : Word} (h : s.events = writeRegEvent r v :: rest) (hr : r ≠ .cmd)
    (hw : State.writeReg { s with events := rest } r v = some t) : step s = .next (t.respond .okay) := by
  rw [step_event h]
  show memWrite _ r.offset 4 _ = _
  rw [memWrite_reg hr, BitVec.ofNat_toNat, BitVec.setWidth_eq, memWriteReg, hw]

theorem Config.legal_bounds {c : Config} (h : c.legal = true) :
    19 ≤ c.msgMax ∧ c.msgMax ≤ 65536 ∧ 1 ≤ c.pktMax ∧ c.pktMax ≤ 65536 := by
  simp only [Config.legal, Bool.and_eq_true, decide_eq_true_eq] at h
  omega

/-- `WR MSG_LEN, n`. -/
theorem step_writeMsgLen {n : Nat} (h : s.events = writeRegEvent .msgLen (BitVec.ofNat 32 n) :: rest)
    (legal : s.cfg.legal = true) (hn : n ≤ s.cfg.msgMax) :
    step s = .next { s with msgLen := n, events := rest, response := some .okay } := by
  have hv : (BitVec.ofNat 32 n).toNat = n := by
    have := Config.legal_bounds legal
    rw [BitVec.toNat_ofNat, Nat.mod_eq_of_lt (by omega)]
  rw [step_writeReg (t := { s with msgLen := n, events := rest }) h nofun (by
    simp only [State.writeReg, hv, if_pos hn])]
  rfl

/-- `WR PKT_LEN, n`. -/
theorem step_writePktLen {n : Nat} (h : s.events = writeRegEvent .pktLen (BitVec.ofNat 32 n) :: rest)
    (legal : s.cfg.legal = true) (hn : n ≤ s.cfg.pktMax) :
    step s = .next { s with pktLen := n, events := rest, response := some .okay } := by
  have hv : (BitVec.ofNat 32 n).toNat = n := by
    have := Config.legal_bounds legal
    rw [BitVec.toNat_ofNat, Nat.mod_eq_of_lt (by omega)]
  rw [step_writeReg (t := { s with pktLen := n, events := rest }) h nofun (by
    simp only [State.writeReg, hv, if_pos hn])]
  rfl

/-- `WR COMMAND, b`. -/
theorem step_writeCommand {b : Byte} (h : s.events = writeRegEvent .command (b.zeroExtend 32) :: rest) :
    step s = .next { s with command := b, events := rest, response := some .okay } := by
  have hb : (b.zeroExtend 32).toNat ≤ 255 := by have := b.isLt; simp; omega
  rw [step_writeReg (t := { s with command := b, events := rest }) h nofun (by
    simp only [State.writeReg, if_pos hb]; simp)]
  rfl

/-- `WR64 SEQ, v` (R16: the two halves). -/
theorem runSteps_writeSeq {v : DWord}
    (h : s.events = writeRegEvent .seqLo (v.extractLsb' 0 32) :: writeRegEvent .seqHi (v.extractLsb' 32 32) :: rest) :
    runSteps 2 s = .next { s with seq := v, events := rest, response := some .okay } := by
  have hv : v.extractLsb' 32 32 ++ (s.seq.extractLsb' 32 32 ++ v.extractLsb' 0 32 : DWord).extractLsb' 0 32 = v := by
    apply BitVec.eq_of_toNat_eq
    simp only [BitVec.toNat_append, BitVec.extractLsb'_toNat, Nat.shiftRight_eq_div_pow,
      Nat.pow_zero, Nat.div_one]
    have hl : v.toNat % 2 ^ 32 < 2 ^ 32 := Nat.mod_lt _ (by decide)
    rw [← Nat.shiftLeft_add_eq_or_of_lt hl, ← Nat.shiftLeft_add_eq_or_of_lt (Nat.mod_lt _ (by decide)),
      Nat.shiftLeft_eq, Nat.shiftLeft_eq]
    have := v.isLt
    omega
  rw [runSteps_succ (step_writeReg h nofun rfl), runSteps_succ (step_writeReg (r := .seqHi) rfl nofun rfl)]
  simp only [State.respond, hv]
  rfl

/-- A register read. -/
theorem step_readReg {r : Reg} {v : Word} (h : s.events = readRegEvent r :: rest) (hv : s.readReg r = some v) :
    step s = .next { s with events := rest, response := some (.okayWord v) } := by
  have hv' : State.readReg { s with events := rest } r = some v := hv
  rw [step_event h]
  show Host.Outcome.next (State.respond _ (memRead _ r.offset 4)) = _
  simp only [memRead, if_true, regAt_offset, hv']
  rfl

/-- A window read. -/
theorem step_readByte {b : Buf} {i : Nat} (h : s.events = readByteEvent b i :: rest) (legal : s.cfg.legal = true)
    (hi : i < bufferSize s.cfg b) :
    step s = .next { s with events := rest, response := some (.okayByte ((s.buffer b).read i)) } := by
  have inside : InWindow { s with events := rest } b (b.base + i) := ⟨by omega, by simpa using hi⟩
  have hw := State.windowAt_in (s := { s with events := rest }) legal inside
  rw [step_event h]
  show Host.Outcome.next (State.respond _ (memRead _ (b.base + i) 1)) = _
  simp only [memRead, hw, Nat.add_sub_cancel_left]
  cases b <;> rfl

/-- A window write. -/
theorem step_writeByte {b : Buf} {i : Nat} {v : Byte} (h : s.events = writeByteEvent b i v :: rest)
    (legal : s.cfg.legal = true) (hi : i < bufferSize s.cfg b) :
    step s = .next ((State.pokeByte { s with events := rest } b i v).respond .okay) := by
  have inside : InWindow { s with events := rest } b (b.base + i) := ⟨by omega, by simpa using hi⟩
  have hw := State.windowAt_in (s := { s with events := rest }) legal inside
  rw [step_event h]
  show memWrite _ (b.base + i) 1 _ = _
  rw [memWrite_byte, BitVec.ofNat_toNat, BitVec.setWidth_eq, memWriteWindow, hw, Nat.add_sub_cancel_left]

/-! ## The responses of a run and the value of a statement -/

/-- One step that is answered, then the rest of the run. -/
theorem runAnswers_succ {n : Nat} {r : Response} (h : step s = .next t) (hr : t.response = some r) :
    runAnswers (n + 1) s =
      match runAnswers n t with
      | .next (u, answers) => .next (u, r :: answers)
      | .fault f => .fault f
      | .refused x => .refused x := by
  simp only [runAnswers, h, hr]; rfl

/-- The states are those of `runSteps`: the responses are only collected beside them. -/
theorem runSteps_of_runAnswers {n : Nat} {answers : List Response} (h : runAnswers n s = .next (t, answers)) :
    runSteps n s = .next t := by
  induction n generalizing s answers with
  | zero => cases h; rfl
  | succ n ih =>
    simp only [runAnswers] at h
    split at h
    · split at h
      · cases h
        rw [runSteps_succ ‹_›]
        exact ih ‹_›
      all_goals cases h
    all_goals cases h

/-- The two halves of a 64-bit register, put together again. -/
@[simp] theorem joinHalves_extract (v : DWord) : joinHalves (v.extractLsb' 0 32) (v.extractLsb' 32 32) = v := by
  apply BitVec.eq_of_getElem_eq
  intro i hi
  by_cases h : i < 32
  · simp [joinHalves, h, BitVec.getLsbD_eq_getElem hi]
  · simp [joinHalves, h, show i - 32 < 32 by omega, show 32 + (i - 32) = i by omega, BitVec.getLsbD_eq_getElem hi]

/-- A statement of one read. -/
theorem runStmt_one {st : Stmt} {e : BusEvent} {r : Response} (he : stmtEvents st = [e])
    (h : step { s with events := e :: s.events } = .next t) (hr : t.response = some r) :
    runStmt st s = .next (t, stmtValue st [r]) := by
  have h₁ : runAnswers 1 { s with events := e :: s.events } = .next (t, [r]) := runAnswers_succ h hr
  simp only [runStmt, he, List.length_singleton, List.singleton_append, h₁]

/-- A statement of two reads. -/
theorem runStmt_two {st : Stmt} {u : State} {e₁ e₂ : BusEvent} {r₁ r₂ : Response} (he : stmtEvents st = [e₁, e₂])
    (h₁ : step { s with events := e₁ :: e₂ :: s.events } = .next t) (hr₁ : t.response = some r₁)
    (h₂ : step t = .next u) (hr₂ : u.response = some r₂) : runStmt st s = .next (u, stmtValue st [r₁, r₂]) := by
  have h : runAnswers 2 { s with events := e₁ :: e₂ :: s.events } = .next (u, [r₁, r₂]) := by
    rw [runAnswers_succ h₁ hr₁, runAnswers_succ h₂ hr₂]; rfl
  simp only [runStmt, he, List.length_cons, List.length_nil, List.cons_append, List.nil_append, h]

/-- Byte writes into `MSG`, one after another: the bytes are there, and nothing else of the block has changed. -/
theorem runSteps_loadMsg {i : Nat} {bytes : List Byte} (legal : s.cfg.legal = true)
    (fits : i + bytes.length ≤ s.cfg.msgMax) (h : s.events = loadEvents .msg i bytes ++ rest) :
    ∃ r, runSteps bytes.length s =
        .next { s with msg := s.msg.writeAll i bytes, events := rest, response := r } ∧
      (bytes = [] → r = s.response) ∧ (bytes ≠ [] → r = some .okay) := by
  induction bytes generalizing s i with
  | nil => exact ⟨s.response, by cases s; cases h; rfl, fun _ => rfl, fun x => absurd rfl x⟩
  | cons b bs ih =>
    simp only [List.length_cons] at fits
    rw [List.length_cons, runSteps_succ (step_writeByte (b := .msg) (i := i) (v := b) h legal (by
      simp only [bufferSize]; omega))]
    obtain ⟨r, hr, h₁, h₂⟩ := ih (s := (State.pokeByte { s with events := loadEvents .msg (i + 1) bs ++ rest } .msg i
      b).respond .okay) (i := i + 1) legal (show i + 1 + bs.length ≤ s.cfg.msgMax by omega) rfl
    refine ⟨r, hr, nofun, fun _ => ?_⟩
    by_cases hb : bs = []
    · exact h₁ hb
    · exact h₂ hb

/-- Byte writes into `PKT`, one after another. -/
theorem runSteps_loadPkt {i : Nat} {bytes : List Byte} (legal : s.cfg.legal = true)
    (fits : i + bytes.length ≤ s.cfg.pktMax) (h : s.events = loadEvents .pkt i bytes ++ rest) :
    ∃ r, runSteps bytes.length s =
        .next { s with pkt := s.pkt.writeAll i bytes, events := rest, response := r } ∧
      (bytes = [] → r = s.response) ∧ (bytes ≠ [] → r = some .okay) := by
  induction bytes generalizing s i with
  | nil => exact ⟨s.response, by cases s; cases h; rfl, fun _ => rfl, fun x => absurd rfl x⟩
  | cons b bs ih =>
    simp only [List.length_cons] at fits
    rw [List.length_cons, runSteps_succ (step_writeByte (b := .pkt) (i := i) (v := b) h legal (by
      simp only [bufferSize]; omega))]
    obtain ⟨r, hr, h₁, h₂⟩ := ih (s := (State.pokeByte { s with events := loadEvents .pkt (i + 1) bs ++ rest } .pkt i
      b).respond .okay) (i := i + 1) legal (show i + 1 + bs.length ≤ s.cfg.pktMax by omega) rfl
    refine ⟨r, hr, nofun, fun _ => ?_⟩
    by_cases hb : bs = []
    · exact h₁ hb
    · exact h₂ hb

end Sys2Proof.Machine
end

