-- ==== Sys2Proof/Tests/Slice0.lean ====
section
/-! SUPPORT. The model's own tests, each on one word, one access or one step. Expected values are the spec's: the vectors
of spec/95_test_vectors.md are named by their ids (X, K, F, M, B, P), the examples of the command rules by their rule.
Then, for every statement of Certificates/Slice0/Obligations.lean that has hypotheses, named `witness_` with the
statement's name: a concrete state and operands that meet them all, at the ends of the ranges. -/

namespace Sys2Proof.Machine.Tests

/-! ## Small states -/

/-- Configuration `T2` of spec/95_test_vectors.md. -/
def t2 : Config := { magic := 0x01DE19CC#32, version := 0x00000001#32, msgMax := 600, pktMax := 604 }

/-- Configuration `T3` of spec/95_test_vectors.md, in which `cfg_sized` does not hold. -/
def t3 : Config := { magic := 0x01DE19CC#32, version := 0x00000001#32, msgMax := 32, pktMax := 20 }

/-- After reset with the host about to issue `ev`. -/
def host (ev : List BusEvent) : State := State.resetWith Config.t1 0 ev

/-- After reset, `MSG` holding `m` and `PKT` holding `p`, both lengths set. -/
def loaded (c : Config) (m p : List Byte) : State :=
  { State.resetWith c 0 [] with
    msg := (Buffer.unspecified 0).writeAll 0 m, msgLen := m.length
    pkt := (Buffer.unspecified 1).writeAll 0 p, pktLen := p.length }

/-- The next state, or the state itself where there is none. -/
def nextOf (s : State) : Host.Outcome State Fault Refusal → State
  | .next t => t
  | .fault _ => s
  | .refused _ => s

/-- After a command. -/
def after (i : Instr) (s : State) : State := nextOf s (exec i s)

/-- After one step with the host having issued `e`. -/
def afterEvent (s : State) (e : BusEvent) : State := nextOf s (step { s with events := [e] })

/-- "PING" (K9). -/
def ping : List Byte := [0x50#8, 0x49#8, 0x4E#8, 0x47#8]

/-- The header of M1. -/
def header1 : List Byte :=
  [0xCC#8, 0x19#8, 0xDE#8, 0x01#8, 0x01#8, 0x00#8, 0x00#8, 0x00#8, 0x01#8, 0x00#8, 0x00#8, 0x00#8, 0x00#8, 0x00#8,
    0x00#8, 0x00#8, 0x2A#8]

/-- The Message of M5. -/
def reply5 : List Byte :=
  [0xCC#8, 0x19#8, 0xDE#8, 0x01#8, 0x01#8, 0x00#8, 0x00#8, 0x00#8, 0x01#8, 0x00#8, 0x00#8, 0x00#8, 0x00#8, 0x00#8,
    0x00#8, 0x80#8, 0x2B#8, 0x50#8, 0x4F#8, 0x4E#8, 0x47#8, 0x21#8, 0xC9#8, 0x35#8]

/-! ## WellFormed: each check refuses an ill-formed term -/

theorem test_wellFormed_zeroField : (CommandFields.mk 0x01#8 0#8 1#16).legal = false := by decide

theorem test_wellFormed_op : (CommandFields.mk 0x14#8 0#8 0#16).legal = false := by decide

theorem test_wellFormed_imm8 : (CommandFields.mk 0x01#8 1#8 0#16).legal = false := by decide

theorem test_wellFormed_imm8_csbyte : (CommandFields.mk 0x02#8 1#8 0#16).legal = true := by decide

/-- R5: each of the four bounds, one past it. -/
theorem test_wellFormed_config :
    (Config.mk 0#32 0#32 18 66).legal = false ∧ (Config.mk 0#32 0#32 65537 66).legal = false ∧
    (Config.mk 0#32 0#32 19 0).legal = false ∧ (Config.mk 0#32 0#32 19 65537).legal = false ∧
    (Config.mk 0#32 0#32 19 1).legal = true ∧ (Config.mk 0#32 0#32 65536 65536).legal = true := by decide

/-- Section 0: `T1` and `T2` meet `cfg_sized` with equality, `T3` does not. -/
theorem test_wellFormed_sized :
    Config.t1.sized = true ∧ t2.sized = true ∧ t3.sized = false ∧ (Config.mk 0#32 0#32 64 65).sized = false := by
  decide

theorem test_wellFormed_event :
    (BusEvent.write 0x10000 1 256).wellFormed = false ∧ (BusEvent.write 0x10000 1 255).wellFormed = true := by decide

/-! ## Decoding: words written out from R50 and R51 (X1 to X13) -/

/-- Bits 7:0 are `op`, 15:8 `imm8`, 31:16 zero; one word of each family, bit by bit. -/
theorem test_decode_bits :
    decodeWord 0b00000000000000000000000000000011#32 = .ok .csmsg ∧
    decodeWord 0b00000000000000000100011100000010#32 = .ok (.csbyte 0x47#8) ∧
    decodeWord 0b00000000000000000000000000010010#32 = .ok .strip ∧
    decodeWord 0b00000000000000000000000000100010#32 = .ok .hdrget := by decide

/-- Every constructor by its word (X1 to X7). -/
theorem test_decode_all :
    decodeWord 0x00000001#32 = .ok .csclr ∧ decodeWord 0x00000002#32 = .ok (.csbyte 0x00#8) ∧
    decodeWord 0x0000FF02#32 = .ok (.csbyte 0xFF#8) ∧ decodeWord 0x00000003#32 = .ok .csmsg ∧
    decodeWord 0x00000010#32 = .ok .encode ∧ decodeWord 0x00000011#32 = .ok .term ∧
    decodeWord 0x00000012#32 = .ok .strip ∧ decodeWord 0x00000013#32 = .ok .decode ∧
    decodeWord 0x00000020#32 = .ok .hdrput ∧ decodeWord 0x00000021#32 = .ok .finish ∧
    decodeWord 0x00000022#32 = .ok .hdrget ∧ decodeWord 0x00000023#32 = .ok .trlget := by decide

/-- X8 to X13. -/
theorem test_decode_illegal :
    decodeWord 0x00000000#32 = .error .undefinedOp ∧ decodeWord 0x00000004#32 = .error .undefinedOp ∧
    decodeWord 0x00000101#32 = .error .strayImmediate ∧ decodeWord 0x00010001#32 = .error .zeroFieldSet ∧
    decodeWord 0x00012A02#32 = .error .zeroFieldSet ∧ decodeWord 0x000000FF#32 = .error .undefinedOp ∧
    decodeWord 0x00000014#32 = .error .undefinedOp ∧ decodeWord 0x00000024#32 = .error .undefinedOp ∧
    decodeWord 0x0000000F#32 = .error .undefinedOp := by decide

theorem test_decodeTableWord :
    decodeTableWord 32 0x00004702 = some (.csbyte 0x47#8) ∧ decodeTableWord 8 0x4701 = some .csclr ∧
    decodeTableWord 32 0 = none ∧ decodeTableWord 40 0x100000001 = none := by decide

/-! ## Commands -/

/-- R72's example, and `STATUS`. -/
theorem test_csclr :
    (after .csclr { host [] with s1 := 0x34#8, s2 := 0x12#8, status := 0x05#32 }).csum = 0x0000#16 ∧
    (after .csclr { host [] with status := 0x05#32 }).status = 0#32 := by decide

/-- K7: `254 + 1` wraps at 255. -/
theorem test_csbyte_wraps : (after (.csbyte 0x01#8) { host [] with s1 := 254#8, s2 := 254#8 }).csum = 0xFE00#16 := by
  decide

/-- K8: `128 + 128`, where an 8-bit wrap would give 0. -/
theorem test_csbyte_mod255 : (after (.csbyte 0x80#8) { host [] with s1 := 128#8, s2 := 128#8 }).csum = 0x8101#16 := by
  decide

/-- K9, with accumulators that must not be used. -/
theorem test_csmsg_ping :
    (after .csmsg { loaded Config.t1 ping [] with s1 := 7#8, s2 := 9#8 }).csum = 0x012F#16 := by decide

/-- K16. -/
theorem test_csmsg_header : (after .csmsg (loaded Config.t1 header1 [])).csum = 0x88F1#16 := by decide

/-- F7, R82's example. -/
theorem test_encode :
    (after .encode (loaded Config.t1 [0x11#8, 0x22#8, 0x00#8, 0x33#8] [])).packet =
      [0x03#8, 0x11#8, 0x22#8, 0x02#8, 0x33#8] := by decide

/-- P7 step 2: `E_NOSPACE`, and what was in `PKT` is gone. -/
theorem test_encode_noSpace :
    (after .encode (loaded t3 (List.replicate 20 0x55#8) [0x01#8])).status = 0x02#32 ∧
    (after .encode (loaded t3 (List.replicate 20 0x55#8) [0x01#8])).pktLen = 0 ∧
    (after .encode (loaded t3 (List.replicate 20 0x55#8) [0x01#8])).pkt.cells = [] := by decide

/-- F40. -/
theorem test_term :
    (after .term (host [])).packet = [0x00#8] ∧ (after .term (host [])).status = 0#32 := by decide

/-- F42, on a full packet buffer. -/
theorem test_term_noSpace :
    (after .term { host [] with pktLen := 66 }).status = 0x02#32 ∧
    (after .term { host [] with pktLen := 66 }).pktLen = 66 := by decide

/-- F46: only the last byte is taken off. -/
theorem test_strip :
    (after .strip (loaded Config.t1 [] [0x01#8, 0x00#8, 0x00#8])).packet = [0x01#8, 0x00#8] := by decide

/-- F44 and F45. -/
theorem test_strip_noTerm :
    (after .strip (loaded Config.t1 [] [0x02#8, 0x11#8])).status = 0x06#32 ∧
    (after .strip (host [])).status = 0x06#32 := by decide

/-- F27, R84's example. -/
theorem test_decode :
    (after .decode (loaded Config.t1 [] [0x03#8, 0x11#8, 0x22#8, 0x02#8, 0x33#8])).message =
      [0x11#8, 0x22#8, 0x00#8, 0x33#8] := by decide

/-- F16 and F17: the keep-alive sets `EMPTY`, the empty Message does not; F24: an unstripped terminator. -/
theorem test_decode_status :
    (after .decode (host [])).status = 0x10#32 ∧ (after .decode (loaded Config.t1 [] [0x01#8])).status = 0#32 ∧
    (after .decode (loaded Config.t1 [] [0x02#8, 0x11#8, 0x00#8])).status = 0x04#32 := by decide

/-- M1. -/
theorem test_hdrput :
    (after .hdrput { host [] with seq := 1#64, command := 0x2A#8 }).message = header1 := by decide

/-- M3: the byte order of the sequence number. -/
theorem test_hdrput_order :
    ((after .hdrput { host [] with seq := 0x0123456789ABCDEF#64, command := 0x7F#8 }).msg.slice 8 17) =
      [0xEF#8, 0xCD#8, 0xAB#8, 0x89#8, 0x67#8, 0x45#8, 0x23#8, 0x01#8, 0x7F#8] := by decide

/-- M2. -/
theorem test_finish :
    (after .finish (loaded Config.t1 (header1 ++ ping) [])).message = header1 ++ ping ++ [0x21#8, 0x51#8] ∧
    (after .finish (loaded Config.t1 (header1 ++ ping) [])).csum = 0x5121#16 := by decide

/-- M11 and M12: the last two bytes of the buffer. -/
theorem test_finish_edge :
    (after .finish (loaded Config.t1 (List.replicate 63 0x01#8) [])).status = 0x02#32 ∧
    (after .finish (loaded Config.t1 (List.replicate 63 0x01#8) [])).msgLen = 63 ∧
    (after .finish (loaded Config.t1 (List.replicate 62 0x01#8) [])).msgLen = 64 := by decide

/-- M5. -/
theorem test_hdrget :
    (after .hdrget (loaded Config.t1 reply5 [])).hMagic = 0x01DE19CC#32 ∧
    (after .hdrget (loaded Config.t1 reply5 [])).hVersion = 0x00000001#32 ∧
    (after .hdrget (loaded Config.t1 reply5 [])).hSeq = 0x8000000000000001#64 ∧
    (after .hdrget (loaded Config.t1 reply5 [])).hCmd = 0x2B#8 := by decide

/-- M9: the test is on 19, not 17. -/
theorem test_hdrget_short :
    (after .hdrget (loaded Config.t1 (reply5.take 18) [])).status = 0x05#32 ∧
    (after .hdrget (loaded Config.t1 (reply5.take 18) [])).hMagic = 0#32 := by decide

/-- M6. -/
theorem test_trlget :
    (after .trlget (loaded Config.t1 reply5 [])).rxCsum = 0x35C9#16 ∧
    (after .trlget (loaded Config.t1 reply5 [])).csum = 0x35C9#16 := by decide

/-- M8: one bit flipped, no error reported. -/
theorem test_trlget_differs :
    (after .trlget (loaded Config.t1 (reply5.set 17 0x51#8) [])).rxCsum = 0x35C9#16 ∧
    (after .trlget (loaded Config.t1 (reply5.set 17 0x51#8) [])).csum = 0x3ACA#16 ∧
    (after .trlget (loaded Config.t1 (reply5.set 17 0x51#8) [])).status = 0#32 := by decide

/-- F20 to F23, F28 to F33: which check fails first, and where the room ends. -/
theorem test_decoder_checks :
    cobsDec [0x03#8, 0x11#8] 9 = .error .trunc ∧ cobsDec [0x00#8] 9 = .error .zeroCode ∧
    cobsDec [0x01#8, 0x00#8] 9 = .error .zeroCode ∧
    cobsDec (0x21#8 :: List.replicate 32 0x01#8) 32 = .ok (List.replicate 32 0x01#8) ∧
    cobsDec (0x22#8 :: List.replicate 33 0x01#8) 32 = .error .noSpace ∧
    cobsDec (0x20#8 :: List.replicate 31 0x01#8 ++ [0x01#8]) 32 = .ok (List.replicate 31 0x01#8 ++ [0x00#8]) ∧
    cobsDec (0x21#8 :: List.replicate 32 0x01#8 ++ [0x01#8]) 32 = .error .noSpace ∧
    cobsDec [0x05#8, 0x11#8] 0 = .error .trunc ∧ cobsDec [0x02#8, 0x11#8, 0x00#8] 2 = .error .zeroCode := by decide

/-- F4, F5, F6, F8b, in both forms of the encoder. -/
theorem test_encoder :
    cobsEnc [0x11#8] = [0x02#8, 0x11#8] ∧ cobsEnc [0x11#8, 0x00#8] = [0x02#8, 0x11#8, 0x01#8] ∧
    cobsEnc [0x00#8, 0x11#8] = [0x01#8, 0x02#8, 0x11#8] ∧
    cobsEncIndexed [0x11#8, 0x00#8, 0x00#8, 0x00#8] = [0x02#8, 0x11#8, 0x01#8, 0x01#8, 0x01#8] := by decide

/-! ## The bus and the step -/

/-- A command by the host's word, from reset; and X8, an illegal word, which runs too. -/
theorem test_step_fetchWord :
    (nextOf State.reset (step (State.reset.withFetchWord 32 0x00004702))).csum = 0x4747#16 ∧
    (nextOf State.reset (step (State.reset.withFetchWord 32 0x00000000))).status = 0x01#32 ∧
    (nextOf State.reset (step (State.reset.withFetchWord 32 0x00000000))).response = some .okay := by decide

/-- B1, B2, B3, B10: the ends of the legal values. -/
theorem test_bus_write :
    (afterEvent (host []) (.write 0x08 4 64)).response = some .okay ∧
    (afterEvent (host []) (.write 0x08 4 64)).msgLen = 64 ∧
    (afterEvent (host []) (.write 0x08 4 65)).response = some .error ∧
    (afterEvent (host []) (.write 0x0C 4 67)).response = some .error ∧
    (afterEvent (host []) (.write 0x18 4 0x100)).response = some .error := by decide

/-- B4, B5, B6, B7, B9, B11. -/
theorem test_bus_refused :
    (List.all [BusEvent.read 0x00 4, .write 0x04 4 0, .write 0x1C 4 0, .write 0x20 4 0, .write 0x24 4 0, .write 0x40 4 0,
      .read 0x04 1, .read 0x04 2, .read 0x06 4, .read 0x10000 4, .write 0x20000 4 0, .read 0x10040 1, .read 0x20042 1,
      .read 0x38 4, .read 0x50 4, .read 0x30000 1]
      fun e => (afterEvent (host []) e).response == some Response.error) = true := by decide

/-- B12. -/
theorem test_bus_config :
    (afterEvent (host []) (.read 0x40 4)).response = some (.okayWord 0x01DE19CC#32) ∧
    (afterEvent (host []) (.read 0x44 4)).response = some (.okayWord 0x00000001#32) ∧
    (afterEvent (host []) (.read 0x48 4)).response = some (.okayWord 0x00000040#32) ∧
    (afterEvent (host []) (.read 0x4C 4)).response = some (.okayWord 0x00000042#32) := by decide

/-- B13: a window is a plain memory, and `MSG_LEN` stays. -/
theorem test_bus_window :
    (afterEvent (afterEvent (host []) (.write 0x10005 1 0xAB)) (.read 0x10005 1)).response =
      some (.okayByte 0xAB#8) ∧
    (afterEvent (host []) (.write 0x10005 1 0xAB)).msgLen = 0 := by decide

/-- B8: the last byte of `MSG` after reset reads as some byte, whatever it is. -/
theorem test_bus_unspecified :
    (afterEvent (host []) (.read 0x1003F 1)).response = some (.okayByte (Config.freeByte 0 0x3F)) := by rfl

/-! ## Witnesses: states and operands that meet the hypotheses of each statement -/

/-- After reset with the host about to issue `ev`, in a legal configuration: the invariant holds. -/
theorem host_inv (ev : List BusEvent) : (host ev).Inv := by
  have h : (host []).Inv := by constructor <;> decide
  exact ⟨h.1, h.2, h.3, h.4, h.5, h.6, h.7, h.8, h.9, h.10, h.11, h.12, h.13, h.14⟩

theorem host_events (ev : List BusEvent) : (host ev).events = ev ++ [] := (List.append_nil ev).symm

theorem witness_OpcodeMapMasksAndMatches :
    decodeWord 0x00000002#32 = .ok (.csbyte 0x00#8) ∧ decodeWord 0x0000FF02#32 = .ok (.csbyte 0xFF#8) := by decide

/-- One word for each way to be illegal, and the two ends of the word. -/
theorem witness_IllegalWordsChangeOnlyStatus :
    (host [.write 0x00 4 0x00010001]).events = .write 0x00 4 0x00010001 :: [] ∧
    IllegalWord (BitVec.ofNat 32 0x00010001) ∧ IllegalWord (BitVec.ofNat 32 0x00000024) ∧
    IllegalWord (BitVec.ofNat 32 0x00000101) ∧ IllegalWord (BitVec.ofNat 32 0x00000000) ∧
    IllegalWord (BitVec.ofNat 32 0xFFFFFFFF) := by
  unfold IllegalWord; decide

theorem witness_StepRunsTheDecodedCommand :
    (host [.write 0x00 4 0x0000FF02]).events = .write 0x00 4 0x0000FF02 :: [] ∧
    decodeWord (BitVec.ofNat 32 0x0000FF02) = .ok (.csbyte 0xFF#8) ∧
    decodeTableWord 32 0x00000023 = some .trlget := by decide

theorem witness_IdleStepChangesNothing : (host []).events = [] := rfl

theorem witness_EveryEventIsAnswered :
    (host [.read 0x04 4, .externalReset]).events = .read 0x04 4 :: [.externalReset] ∧
    BusEvent.read 0x04 4 ≠ .externalReset := by decide

theorem witness_ConfigurationNeverChanges :
    ∃ t, step (host [.write 0x40 4 0]) = .next t := ⟨_, rfl⟩

theorem witness_ResetState : host [] = State.resetWith Config.t1 0 [] := rfl

/-- The two ends of the legal sizes, and the test configurations. -/
theorem witness_ResetMeetsInvariant :
    (Config.mk 0#32 0#32 19 1).legal = true ∧ (Config.mk 0#32 0#32 65536 65536).legal = true ∧
    Config.t1.legal = true ∧ t3.legal = true := by decide

theorem witness_StepKeepsInvariant :
    (host [.write 0x00 4 0x20]).Inv ∧ ∃ t, step (host [.write 0x00 4 0x20]) = .next t := ⟨host_inv _, _, rfl⟩

/-- A state reached by running a command: `HDRPUT` from reset. -/
theorem witness_ReachableStatesAreInBounds :
    Reachable (afterEvent (host []) (.write 0x00 4 0x20)) ∧
    (afterEvent (host []) (.write 0x00 4 0x20)).msgLen = 17 := by
  refine ⟨.step { host [] with events := [.write 0x00 4 0x20] } _ ?_ rfl, by decide⟩
  exact .issue (host []) [.write 0x00 4 0x20] (.reset Config.t1 (by decide))

theorem witness_ExternalResetClearsRegisters :
    ({ loaded Config.t1 ping [] with events := [.externalReset, .read 0x08 4] } : State).events =
      .externalReset :: [.read 0x08 4] := rfl

/-- Each clause: the first and last readable register, the ends of both windows, the first offsets past them. -/
theorem witness_BusReadAnswers :
    (host []).cfg.legal = true ∧ (host [.read 0x04 4]).events = .read 0x04 4 :: [] ∧
    (0x04 = Reg.offset .status ∧ Reg.access .status ≠ .wo) ∧
    (0x4C = Reg.offset .cfgPktMax ∧ Reg.access .cfgPktMax ≠ .wo) ∧
    InWindow (host []) .msg 0x10000 ∧ InWindow (host []) .msg 0x1003F ∧ InWindow (host []) .pkt 0x20000 ∧
    InWindow (host []) .pkt 0x20041 ∧
    (¬ ∃ r : Reg, (4 : Nat) = 4 ∧ 0x50 = r.offset ∧ r.access ≠ .wo) ∧
    (¬ ∃ b : Buf, (1 : Nat) = 1 ∧ InWindow (host []) b 0x10040) ∧
    (¬ ∃ b : Buf, (1 : Nat) = 1 ∧ InWindow (host []) b 0x20042) := by
  refine ⟨by decide, rfl, by decide, by decide, by unfold InWindow; decide, by unfold InWindow; decide,
    by unfold InWindow; decide, by unfold InWindow; decide, ?_, ?_, ?_⟩
  · rintro ⟨r, -, h, -⟩; cases r <;> cases h
  · rintro ⟨b, -, h⟩; revert h; cases b <;> (unfold InWindow; decide)
  · rintro ⟨b, -, h⟩; revert h; cases b <;> (unfold InWindow; decide)

theorem witness_RegisterFileMap : regAt 0x4C = some .cfgPktMax ∧ (host []).Inv := ⟨rfl, host_inv _⟩

/-- The largest legal value of each register that bounds its values, the first illegal one, and any value otherwise. -/
theorem witness_RegisterWritesTakeLegalValues :
    (host [.write (Reg.offset .msgLen) 4 64]).events = .write (Reg.offset .msgLen) 4 64 :: [] ∧
    Reg.access .msgLen = .rw ∧ (64 : Nat) < 2 ^ 32 ∧
    LegalValue (host []) .msgLen (BitVec.ofNat 32 64) ∧ ¬ LegalValue (host []) .msgLen (BitVec.ofNat 32 65) ∧
    LegalValue (host []) .pktLen (BitVec.ofNat 32 66) ∧ ¬ LegalValue (host []) .pktLen (BitVec.ofNat 32 67) ∧
    LegalValue (host []) .command (BitVec.ofNat 32 255) ∧ ¬ LegalValue (host []) .command (BitVec.ofNat 32 256) ∧
    LegalValue (host []) .seqLo (BitVec.ofNat 32 0xFFFFFFFF) ∧
    LegalValue (host []) .seqHi (BitVec.ofNat 32 0xFFFFFFFF) ∧
    (host [.write (Reg.offset .cmd) 4 0]).events = .write (Reg.offset .cmd) 4 0 :: [] := by
  refine ⟨rfl, rfl, by decide, ?_, ?_, ?_, ?_, ?_, ?_, trivial, trivial, rfl⟩ <;> (unfold LegalValue; decide)

/-- No register of R32 stands at an offset of 0x50 or more, nor at 0x38. -/
theorem noReg_of (addr : Nat) (h : 0x50 ≤ addr ∨ addr = 0x38) (r : Reg) : addr / 4 * 4 ≠ r.offset := by
  cases r <;> simp only [Reg.offset] <;> omega

theorem noWindow_of (addr : Nat) (h : addr < 0x10000 ∨ 0x30000 ≤ addr) (b : Buf) : ¬ InWindow (host []) b addr := by
  rintro ⟨h₁, h₂⟩
  have hm : (host []).cfg = Config.t1 := rfl
  cases b <;> simp only [Buf.base, msgBase, pktBase, bufferSize, hm, Config.t1] at h₁ h₂ <;> omega

/-- One access of each kind that R36 lists. -/
theorem witness_RefusedAccessesChangeNothing :
    (host [.read 0x04 2]).events = .read 0x04 2 :: [] ∧ RefusedAccess (host []) (.read 0x04 2) ∧
    RefusedAccess (host []) (.write 0x10000 8 0) ∧ RefusedAccess (host []) (.read 0x06 4) ∧
    RefusedAccess (host []) (.write 0x05 4 0) ∧ RefusedAccess (host []) (.read 0x10000 4) ∧
    RefusedAccess (host []) (.write 0x20000 4 0) ∧ RefusedAccess (host []) (.read 0x4F 1) ∧
    RefusedAccess (host []) (.write 0x00 1 1) ∧ RefusedAccess (host []) (.read 0x00 4) ∧
    RefusedAccess (host []) (.write 0x4C 4 0) ∧ RefusedAccess (host []) (.write 0x08 4 65) ∧
    RefusedAccess (host []) (.read 0x38 4) ∧ RefusedAccess (host []) (.write 0x30000 1 0) := by
  refine ⟨rfl, .readSize _ _ (by decide), .writeSize _ _ _ (by decide), .readMisaligned _ (by decide),
    .writeMisaligned _ _ (by decide), .readWindowWord .msg _ (by unfold InWindow; decide),
    .writeWindowWord .pkt _ _ (by unfold InWindow; decide), .readRegByte _ (by decide), .writeRegByte _ _ (by decide),
    .readCmd, .writeReadOnly .cfgPktMax _ rfl, .illegalValue .msgLen 65 rfl (by decide) (by unfold LegalValue; decide),
    .readUnmapped _ _ (noReg_of _ (.inr rfl)) (noWindow_of _ (.inl (by decide))),
    .writeUnmapped _ _ _ (noReg_of _ (.inl (by decide))) (noWindow_of _ (.inr (by decide)))⟩

/-- A write of a read-only register, and a 4-byte write to a window. -/
theorem witness_OtherWritesAreRefused :
    (host [.write 0x04 4 0]).events = .write 0x04 4 0 :: [] ∧ ¬ ((4 : Nat) = 4 ∧ (0x04 : Nat) = 0x00) ∧
    (¬ ∃ r : Reg, (4 : Nat) = 4 ∧ 0x04 = r.offset ∧ r.access = .rw ∧
      LegalValue (host []) r (BitVec.ofNat 32 0)) ∧
    (¬ ∃ b : Buf, (4 : Nat) = 1 ∧ InWindow (host []) b 0x04) := by
  refine ⟨rfl, by decide, ?_, by simp⟩
  rintro ⟨r, -, h, ha, -⟩
  cases r <;> simp only [Reg.offset] at h <;> first | omega | cases ha

/-- The two ends of each window. -/
theorem witness_WindowWriteChangesOneByte :
    (host [.write 0x1003F 1 255]).cfg.legal = true ∧
    (host [.write 0x1003F 1 255]).events = .write 0x1003F 1 255 :: [] ∧
    InWindow (host []) .msg 0x10000 ∧ InWindow (host []) .msg 0x1003F ∧ InWindow (host []) .pkt 0x20000 ∧
    InWindow (host []) .pkt 0x20041 := by
  unfold InWindow; decide

/-- The same byte, and two different ones. -/
theorem witness_WindowReadSeesTheWrite :
    (host [.write 0x10000 1 7, .read 0x10000 1]).events = .write 0x10000 1 7 :: .read 0x10000 1 :: [] ∧
    (host [.write 0x10000 1 7, .read 0x20041 1]).events = .write 0x10000 1 7 :: .read 0x20041 1 :: [] ∧
    (host []).cfg.legal = true ∧ InWindow (host []) .msg 0x10000 ∧ InWindow (host []) .pkt 0x20041 := by
  unfold InWindow; decide

theorem witness_FletcherByteStep : (254#8 : Byte).toNat ≤ 254 ∧ (0#8 : Byte).toNat ≤ 254 := by decide

/-- Both ends of `S1`; a sequence of bytes that leave zero sums. -/
theorem witness_CsbyteFeedsOneByte :
    (host []).s1.toNat ≤ 254 ∧ ({ host [] with s1 := 254#8 } : State).s1.toNat ≤ 254 ∧
    (∀ x ∈ [0x00#8, 0xFF#8], x = 0x00#8 ∨ x = 0xFF#8) ∧ (host []).s1 = 0#8 ∧ (host []).s2 = 0#8 := by decide

theorem witness_CsmsgChecksumsTheMessage : (host []).msgLen = 0 := rfl

/-- The first bit of the first byte, the last of the last. -/
theorem witness_FletcherLaws : 0 < ping.length ∧ 3 < ping.length ∧ (0 : Nat) < 8 ∧ (7 : Nat) < 8 := by decide

/-- A command that is not `CSBYTE`; and one for each clause on the sums. -/
theorem witness_OnlyCsbyteReadsTheSums :
    (∀ x, Instr.csclr ≠ .csbyte x) ∧ (∀ x, Instr.csmsg ≠ .csbyte x) ∧ (∀ x, Instr.finish ≠ .csbyte x) ∧
    (∀ x, Instr.trlget ≠ .csbyte x) ∧ (after .finish (host [])).ecode = 0#4 ∧
    (after .trlget (loaded Config.t1 reply5 [])).ecode = 0#4 := by
  refine ⟨nofun, nofun, nofun, nofun, by decide, by decide⟩

/-- A sequence with no zero byte, and one with. -/
theorem witness_EncodedLength : 0x00#8 ∉ ping ∧ 0x00#8 ∈ header1 := by decide

/-- The room exactly used. -/
theorem witness_FramingRoundTrip :
    ping.length ≤ 4 ∧ (loaded Config.t1 ping []).msgLen ≤ Config.t1.msgMax ∧
    (cobsEnc (loaded Config.t1 ping []).message).length ≤ Config.t1.pktMax := by decide

/-- P7: 19 bytes fit `T3`'s packet buffer exactly, 20 do not; `T1` is sized, with the message buffer full. -/
theorem witness_EncodeFramesTheMessage :
    (cobsEnc (loaded t3 (List.replicate 19 0x55#8) []).message).length = t3.pktMax ∧
    t3.pktMax < (cobsEnc (loaded t3 (List.replicate 20 0x55#8) []).message).length ∧
    (loaded Config.t1 (List.replicate 64 0x55#8) []).cfg.sized = true ∧
    (loaded Config.t1 (List.replicate 64 0x55#8) []).msgLen ≤ Config.t1.msgMax := by decide

/-- A zero code; a code one too large; literals that fill the input, and that leave more of it; room for neither, for the
literals alone, for the zero too. -/
theorem witness_DecoderTakesOneRecordAtATime :
    (0x03#8 : Byte) ≠ 0x00#8 ∧ [0x11#8].length + 1 < (0x03#8 : Byte).toNat ∧
    ([0x11#8, 0x22#8] : List Byte) = [0x11#8] ++ [0x22#8] ∧ [0x11#8].length + 1 = (0x02#8 : Byte).toNat ∧
    0 < [0x11#8].length ∧ (0x02#8 : Byte).toNat ≠ 255 ∧ ([0x22#8] : List Byte) ≠ [] ∧
    (1 < [0x11#8].length + 1 ∧ [0x11#8].length ≤ 1) ∧ [0x11#8].length + 1 ≤ 2 := by decide

theorem witness_DecodedBytesFitTheRoom : cobsDec [0x03#8, 0x11#8, 0x22#8] 2 = .ok [0x11#8, 0x22#8] := by decide

/-- A frame that decodes, one for each error, and the empty one. -/
theorem witness_DecodeUnframesThePacket :
    cobsDec (loaded Config.t1 [] [0x02#8, 0x11#8]).packet Config.t1.msgMax = .ok [0x11#8] ∧
    cobsDec (loaded Config.t1 [] [0x00#8]).packet Config.t1.msgMax = .error .zeroCode ∧
    cobsDec (loaded Config.t1 [] [0x02#8]).packet Config.t1.msgMax = .error .trunc ∧
    cobsDec (loaded t3 [] (0x14#8 :: List.replicate 19 0x01#8)).packet t3.msgMax = .ok (List.replicate 19 0x01#8) ∧
    cobsDec (0x42#8 :: List.replicate 65 0x09#8) Config.t1.msgMax = .error .noSpace ∧
    (host []).pktLen = 0 := by decide

theorem witness_DecoderIsNotInjective :
    (List.replicate 254 0x07#8).length = 254 ∧ 0x00#8 ∉ List.replicate 254 0x07#8 := by
  exact ⟨List.length_replicate, fun h => absurd (List.eq_of_mem_replicate h) (by decide)⟩

/-- One byte of room, none, and a full message buffer in a sized configuration. -/
theorem witness_TermAppendsTheTerminator :
    ({ host [] with pktLen := 65 } : State).pktLen < Config.t1.pktMax ∧
    Config.t1.pktMax ≤ ({ host [] with pktLen := 66 } : State).pktLen ∧
    (loaded Config.t1 (List.replicate 64 0x55#8) []).cfg.sized = true ∧
    (loaded Config.t1 (List.replicate 64 0x55#8) []).msgLen ≤ Config.t1.msgMax := by decide

/-- A last byte that is the terminator, one that is not, no byte, and room for a terminator. -/
theorem witness_StripRemovesTheTerminator :
    (0 < (loaded Config.t1 [] [0x00#8]).pktLen ∧ (loaded Config.t1 [] [0x00#8]).pkt.read 0 = 0x00#8) ∧
    (loaded Config.t1 [] [0x11#8]).pkt.read 0 ≠ 0x00#8 ∧ (host []).pktLen = 0 ∧
    ({ host [] with pktLen := 65 } : State).pktLen < Config.t1.pktMax := by decide

/-- A full message buffer of `T1`, which is sized with equality. -/
theorem witness_EncodeThenTermMakesAPacket :
    (cobsEnc (loaded Config.t1 (List.replicate 64 0x55#8) []).message).length < Config.t1.pktMax := by decide

theorem witness_UnstrippedTerminatorIsRefused : ping.length < 5 := by decide

theorem witness_HeaderPackingIsABijection : header1.length = 17 := rfl

/-- The first and last index of each field, and the first byte past the header. -/
theorem witness_HdrputWritesTheHeader : (0 < 4 ∧ 3 < 4) ∧ (0 < 8 ∧ 7 < 8) ∧ 17 ≤ 17 := by decide

/-- M12 and M11: two bytes of room, one; and an empty message. -/
theorem witness_FinishAppendsTheChecksum :
    ({ host [] with msgLen := 62 } : State).msgLen + 2 ≤ Config.t1.msgMax ∧
    Config.t1.msgMax < ({ host [] with msgLen := 63 } : State).msgLen + 2 ∧ (host []).msgLen = 0 := by decide

theorem witness_HdrgetReadsTheHeader :
    19 ≤ (loaded Config.t1 (reply5.take 19) []).msgLen ∧ (loaded Config.t1 (reply5.take 18) []).msgLen < 19 := by decide

theorem witness_TrlgetReadsTheTrailer :
    19 ≤ (loaded Config.t1 (reply5.take 19) []).msgLen ∧ (loaded Config.t1 (reply5.take 18) []).msgLen < 19 := by decide

theorem witness_ErrorConditions : ∀ i, decodeWord 0x00000000#32 ≠ .ok i := by
  intro i h; cases i <;> cases h

/-- An illegal word; an error that changes nothing; each of the two that lose a buffer. -/
theorem witness_ErrorsLeaveBehind :
    (∀ i, decodeWord 0x00010001#32 ≠ .ok i) ∧
    (∃ t, exec .hdrget (host []) = .next t ∧ t.ecode ≠ 0#4) ∧
    (∃ t, exec .encode (loaded t3 (List.replicate 20 0x55#8) []) = .next t ∧ t.ecode ≠ 0#4) ∧
    (∃ t, exec .decode (loaded Config.t1 [] [0x00#8]) = .next t ∧ t.ecode ≠ 0#4) := by
  refine ⟨fun i h => ?_, ⟨after .hdrget (host []), rfl, by decide⟩,
    ⟨after .encode (loaded t3 (List.replicate 20 0x55#8) []), rfl, by decide⟩,
    ⟨after .decode (loaded Config.t1 [] [0x00#8]), rfl, by decide⟩⟩
  cases i <;> cases h

theorem witness_OnlyCommandsWriteStatus :
    (host [.write 0x08 4 3]).events = .write 0x08 4 3 :: [] ∧ (∀ v, BusEvent.write 0x08 4 3 ≠ .write 0x00 4 v) ∧
    BusEvent.write 0x08 4 3 ≠ .externalReset ∧ ∃ t, step (host [.write 0x08 4 3]) = .next t :=
  ⟨rfl, nofun, nofun, _, rfl⟩

theorem witness_CommandsWriteOnlyTheirColumns : ∃ t, exec .strip (loaded Config.t1 [] [0x00#8]) = .next t := ⟨_, rfl⟩

/-- Buffers that differ from index 4 on, and at no index below the lengths. -/
theorem witness_BytesBeyondTheLengthDoNotMatter :
    (∀ k, k < (loaded Config.t1 ping []).msgLen →
      ((loaded Config.t1 ping []).msg.write 4 0xAA#8).read k = (loaded Config.t1 ping []).msg.read k) ∧
    (∀ k, k < (loaded Config.t1 ping []).pktLen →
      ((loaded Config.t1 ping []).pkt.write 0 0xAA#8).read k = (loaded Config.t1 ping []).pkt.read k) := by
  refine ⟨fun k hk => ?_, fun k hk => absurd hk (Nat.not_lt_zero k)⟩
  rw [Buffer.read_write, if_neg]
  have : (loaded Config.t1 ping []).msgLen = 4 := rfl
  omega

/-- Nothing to load, a full packet buffer; a payload that ends at the last byte of the message buffer. -/
theorem witness_LoadStatementsFillTheBuffers :
    ((host (stmtEvents (.ldpkt []))).events = stmtEvents (.ldpkt []) ++ [] ∧ (host []).cfg.legal = true) ∧
    (List.replicate 66 0x01#8).length ≤ Config.t1.pktMax ∧
    ((host (stmtEvents (.ldmsg 60 ping))).events = stmtEvents (.ldmsg 60 ping) ++ [] ∧
      60 + ping.length ≤ Config.t1.msgMax) := by
  refine ⟨⟨?_, by decide⟩, by decide, ?_, by decide⟩ <;> exact host_events _

/-- P1, and the largest payload. -/
theorem witness_TransmitBuildsTheRequestPacket :
    (host (scriptEvents (transmitScript 1#64 0x2A#8 ping))).Inv ∧ Config.t1.sized = true ∧
    19 + ping.length ≤ Config.t1.msgMax ∧ 19 + (List.replicate 45 0x01#8).length ≤ Config.t1.msgMax ∧
    (host (scriptEvents (transmitScript 1#64 0x2A#8 ping))).events =
      scriptEvents (transmitScript 1#64 0x2A#8 ping) ++ [] :=
  ⟨host_inv _, by decide, by decide, by decide, host_events _⟩

/-- The Packet of M5's Message, as in P2. -/
theorem witness_ReceiveRecoversTheMessage :
    (host (scriptEvents (receiveScript (packetOf reply5) ++ openMessageScript))).Inv ∧ 19 ≤ reply5.length ∧
    reply5.length ≤ Config.t1.msgMax ∧ (packetOf reply5).length ≤ Config.t1.pktMax ∧
    (host (scriptEvents (receiveScript (packetOf reply5) ++ openMessageScript))).events =
      scriptEvents (receiveScript (packetOf reply5) ++ openMessageScript) ++ [] :=
  ⟨host_inv _, by decide, by decide, by decide, host_events _⟩

/-- Both ways round: directly, and through the framer in a sized configuration; the largest payload. -/
theorem witness_CodecRoundTrip :
    (host (scriptEvents (codecScript ping []))).Inv ∧ 19 + ping.length ≤ Config.t1.msgMax ∧
    19 + (List.replicate 45 0x01#8).length ≤ Config.t1.msgMax ∧ Config.t1.sized = true ∧
    (host (scriptEvents (codecScript ping []))).events = scriptEvents (codecScript ping []) ++ [] ∧
    (host (scriptEvents (codecScript ping framingScript))).events =
      scriptEvents (codecScript ping framingScript) ++ [] :=
  ⟨host_inv _, by decide, by decide, by decide, host_events _, host_events _⟩

theorem witness_KeepAliveIsReportedEmpty :
    (host []).cfg.legal = true ∧
    (host (scriptEvents (receiveScript [0x00#8]))).events = scriptEvents (receiveScript [0x00#8]) ++ [] :=
  ⟨by decide, host_events _⟩

/-- The shortest run, one read; a Packet of four bytes, all of it read. -/
theorem witness_ReadingThePacketOut :
    (host []).cfg.legal = true ∧
    ((host (scriptEvents (readPacket 0))).pktLen = 0 ∧
      (host (scriptEvents (readPacket 0))).events = scriptEvents (readPacket 0) ++ []) ∧
    (loaded Config.t1 [] ping).pktLen ≤ Config.t1.pktMax ∧ 3 < (loaded Config.t1 [] ping).pktLen ∧
    ({ loaded Config.t1 [] ping with events := scriptEvents (readPacket 4) } : State).events =
      scriptEvents (readPacket (loaded Config.t1 [] ping).pktLen) ++ [] :=
  ⟨by decide, ⟨rfl, host_events _⟩, by decide, by decide, by rw [List.append_nil]; rfl⟩

/-- `STATUS` holding every bit set does not stay: `TERM` on a full buffer ends in error 2, on an empty one in success. -/
theorem test_status_is_not_sticky :
    (after .term { loaded t3 [] (List.replicate 20 0x01#8) with status := 0xFFFFFFFF#32 }).status = 2#32 ∧
    (after .term { loaded t3 [] [] with status := 0xFFFFFFFF#32 }).status = 0#32 := by decide

/-- The register file has its readings in every state; the last byte of each window. -/
theorem witness_ReadStatementsHaveTheirValues :
    (host []).readReg .hCmd = some 0#32 ∧ (host []).cfg.legal = true ∧ 63 < bufferSize (host []).cfg .msg ∧
    65 < bufferSize (host []).cfg .pkt := by decide

/-- Row 11 of the receive example of spec/95_test_vectors.md: `RD64 H_SEQ ; = 0x8000000000000001`. -/
theorem test_rd64_hSeq :
    runStmt .rd64HSeq { host [] with hSeq := 0x8000000000000001#64 } =
      .next ({ host [] with hSeq := 0x8000000000000001#64, response := some (.okayWord 0x80000000#32) },
        some 0x8000000000000001#64) := rfl

end Sys2Proof.Machine.Tests
end

section
/-! PROOF. The configuration is the same after every step (spec/00_scope.md R5). -/

namespace Sys2Proof.Machine

variable {s t : State}

/-- `CFG_MSG_MAX` and its neighbours are read-only registers (R32), and no other register holds a parameter. -/
theorem writeReg_keeps_cfg {r : Reg} {v : Word} (h : s.writeReg r v = some t) : t.cfg = s.cfg := by
  rw [writeReg_frame h]

@[simp] theorem State.pokeByte_cfg (s : State) (b : Buf) (i : Nat) (v : Byte) : (s.pokeByte b i v).cfg = s.cfg := by
  cases b
  case msg => exact State.pokeByte_msg_cfg s i v
  case pkt => exact State.pokeByte_pkt_cfg s i v

@[simp] theorem State.externalReset_cfg (s : State) : s.externalReset.cfg = s.cfg :=
  State.resetWith_cfg s.cfg s.draws s.events

/-- Whatever a bus access does, answered, refused or run as a command, it leaves the parameters. -/
theorem AccessEffect.keeps_cfg (h : AccessEffect s t) : t.cfg = s.cfg := by
  cases h with
  | answered _ r => simp
  | command i _ u o e effect => simpa using effect.keeps_cfg
  | register _ t r v written => simpa using writeReg_keeps_cfg written
  | window _ b i v inside => simp

/-- Settles O9: each branch of `step_cases` leaves the parameters; taking the event off the list touches none. -/
theorem configurationNeverChanges : Obligations.ConfigurationNeverChanges := by
  intro s t h
  obtain ⟨-, rfl⟩ | ⟨e, rest, -, ⟨-, access⟩ | ⟨-, rfl⟩⟩ := step_cases h
  · rfl
  · exact access.keeps_cfg
  · exact State.externalReset_cfg { s with events := rest }

end Sys2Proof.Machine
end

section
/-! PROOF. The invariant (spec/10_state.md R24): it holds after reset, every named update of the state keeps it, so every
step does, and every reachable state is within the bounds of R24. -/

namespace Sys2Proof.Machine

variable {s t u : State}

/-! ## What fits the room -/

/-- R83 checks the room before every byte it puts out, so the output never outgrows it. -/
theorem cobsDecFrom_length_le {cap fuel : Nat} {rest out d : List Byte} (h : cobsDecFrom cap fuel rest out = .ok d)
    (fits : out.length ≤ cap) : d.length ≤ cap := by
  induction fuel generalizing rest out with
  | zero => cases h; exact fits
  | succ fuel ih =>
    cases rest with
    | nil => cases h; exact fits
    | cons code tail =>
      simp only [cobsDecFrom] at h
      have hlit : (tail.take (code.toNat - 1)).length ≤ code.toNat - 1 := List.length_take_le _ _
      split at h
      · cases h
      split at h
      · cases h
      split at h
      · cases h
      split at h
      · split at h
        · cases h
        · exact ih h (by simp only [List.length_append, List.length_singleton]; omega)
      · exact ih h (by simp only [List.length_append]; omega)

theorem cobsDec_length_le {cap : Nat} {rest d : List Byte} (h : cobsDec rest cap = .ok d) : d.length ≤ cap :=
  cobsDecFrom_length_le h (Nat.zero_le cap)

/-! ## The updates keep the invariant -/

namespace State.Inv

theorem resetWith {c : Config} (legal : c.legal = true) (d : Nat) (ev : List BusEvent) :
    (State.resetWith c d ev).Inv where
  cfgLegal := legal
  msgWf := .nil
  pktWf := .nil
  msgBelow := nofun
  pktBelow := nofun
  msgLenLe := Nat.zero_le _
  pktLenLe := Nat.zero_le _
  s1Le := Nat.zero_le _
  s2Le := Nat.zero_le _
  ecodeLe := Nat.zero_le _
  reservedZero := by simp [State.statusReserved]
  msgDrawLt := by simp
  pktDrawLt := by simp
  drawsDiffer := by simp

theorem externalReset (h : s.Inv) : s.externalReset.Inv := .resetWith h.cfgLegal _ _

/-- The host's list of events is no part of the invariant. -/
theorem withEvents (h : s.Inv) (ev : List BusEvent) : State.Inv { s with events := ev } := { h with }

theorem respond (h : s.Inv) (r : Response) : (s.respond r).Inv := { h with }

theorem endCommand (h : s.Inv) (o : Option CmdError) (e : Bool) : (s.endCommand o e).Inv :=
  { h with
    ecodeLe := by rw [State.endCommand_ecode]; exact outcomeCode_le o
    reservedZero := State.endCommand_statusReserved s o e }

theorem setSums (h : s.Inv) {p : Byte × Byte} (hp : p.1.toNat ≤ 254 ∧ p.2.toNat ≤ 254) : (s.setSums p).Inv :=
  { h with s1Le := hp.1, s2Le := hp.2 }

theorem setRxCsum (h : s.Inv) (v : Half) : (s.setRxCsum v).Inv := { h with }

theorem setHeader (h : s.Inv) (m w : Word) (q : DWord) (c : Byte) : (s.setHeader m w q c).Inv := { h with }

/-- Bytes written into `MSG` up to its size, with any length that it has room for. -/
theorem setMsg_writeAll (h : s.Inv) {i n : Nat} {bytes : List Byte} (fits : i + bytes.length ≤ s.cfg.msgMax)
    (hn : n ≤ s.cfg.msgMax) : (s.setMsg (s.msg.writeAll i bytes) n).Inv :=
  { h with
    msgWf := Memory.wf_storeAll h.msgWf i bytes
    msgBelow := Memory.below_storeAll h.msgBelow fits
    msgLenLe := hn }

/-- Bytes written into `PKT` up to its size, with any length that it has room for. -/
theorem setPkt_writeAll (h : s.Inv) {i n : Nat} {bytes : List Byte} (fits : i + bytes.length ≤ s.cfg.pktMax)
    (hn : n ≤ s.cfg.pktMax) : (s.setPkt (s.pkt.writeAll i bytes) n).Inv :=
  { h with
    pktWf := Memory.wf_storeAll h.pktWf i bytes
    pktBelow := Memory.below_storeAll h.pktBelow fits
    pktLenLe := hn }

theorem setPkt_pkt (h : s.Inv) {n : Nat} (hn : n ≤ s.cfg.pktMax) : (s.setPkt s.pkt n).Inv := { h with pktLenLe := hn }

/-- A lost buffer is empty, and its draw is fresh: above both buffers' draws before. -/
theorem loseMsg (h : s.Inv) : s.loseMsg.Inv :=
  { h with
    msgWf := .nil
    msgBelow := nofun
    msgLenLe := Nat.zero_le _
    msgDrawLt := Nat.lt_succ_self _
    pktDrawLt := Nat.lt_succ_of_lt h.pktDrawLt
    drawsDiffer := (Nat.ne_of_lt h.pktDrawLt).symm }

theorem losePkt (h : s.Inv) : s.losePkt.Inv :=
  { h with
    pktWf := .nil
    pktBelow := nofun
    pktLenLe := Nat.zero_le _
    msgDrawLt := Nat.lt_succ_of_lt h.msgDrawLt
    pktDrawLt := Nat.lt_succ_self _
    drawsDiffer := Nat.ne_of_lt h.msgDrawLt }

theorem pokeByte (h : s.Inv) {b : Buf} {i : Nat} (inside : i < bufferSize s.cfg b) (v : Byte) :
    (s.pokeByte b i v).Inv := by
  cases b with
  | msg =>
    exact { h with msgWf := Memory.wf_store h.msgWf i v, msgBelow := Memory.below_store h.msgBelow inside v }
  | pkt =>
    exact { h with pktWf := Memory.wf_store h.pktWf i v, pktBelow := Memory.below_store h.pktBelow inside v }

theorem writeReg (h : s.Inv) {r : Reg} {v : Word} (written : s.writeReg r v = some t) : t.Inv := by
  obtain ⟨hm, hp⟩ := writeReg_lengths written
  rw [writeReg_frame written]
  exact { h with msgLenLe := hm h.msgLenLe, pktLenLe := hp h.pktLenLe }

/-! ## So does every command, every access, every step -/

/-- Each command writes within the room its own check has seen; `HDRPUT` has no check, and a legal `MSG_MAX` holds a
header. -/
theorem effect (h : s.Inv) {i : Instr} (changed : Effect i s u) : u.Inv := by
  cases changed with
  | nothing => exact h
  | csclr => exact h.setSums (by decide)
  | csbyte b => exact h.setSums (flStep_le _ b)
  | csmsg => exact h.setSums (flSums_le _)
  | encode _ fits => exact h.setPkt_writeAll (by omega) fits
  | losePkt => exact h.losePkt
  | term _ fits => exact h.setPkt_writeAll (bytes := [termByte]) fits fits
  | strip => exact h.setPkt_pkt ((Nat.sub_le _ _).trans h.pktLenLe)
  | decode _ d decoded =>
    have hd := cobsDec_length_le decoded
    exact h.setMsg_writeAll (by omega) hd
  | loseMsg => exact h.loseMsg
  | hdrput =>
    have room := (Config.legal_bounds h.cfgLegal).1
    exact h.setMsg_writeAll (by rw [packHdr_length]; omega) (by rw [hdrSize]; omega)
  | finish _ fits => exact (h.setSums (flSums_le _)).setMsg_writeAll fits fits
  | hdrget _ f => exact h.setHeader ..
  | trlget _ v bytes => exact (h.setRxCsum v).setSums (flSums_le bytes)

theorem access (h : s.Inv) (done : AccessEffect s t) : t.Inv := by
  cases done with
  | answered _ r => exact h.respond r
  | command i _ u o e changed => exact ((h.effect changed).endCommand o e).respond _
  | register _ t r v written => exact (h.writeReg written).respond _
  | window _ b i v inside => exact (h.pokeByte inside v).respond _

end State.Inv

/-- Settles O12: by `step_cases` a step is nothing, one access after the event is taken off the list, or the reset, and
each keeps the invariant. -/
theorem stepKeepsInvariant : Obligations.StepKeepsInvariant := by
  intro s t hs h
  obtain ⟨-, rfl⟩ | ⟨e, rest, -, ⟨-, access⟩ | ⟨-, rfl⟩⟩ := step_cases h
  · exact hs
  · exact (hs.withEvents rest).access access
  · exact (hs.withEvents rest).externalReset

/-- Settles O11: `T1` is a legal configuration. -/
theorem resetMeetsInvariant : Obligations.ResetMeetsInvariant :=
  ⟨fun _ d ev legal => .resetWith legal d ev, .resetWith (by decide) 0 []⟩

theorem Reachable.inv (h : Reachable s) : s.Inv := by
  induction h with
  | reset c legal => exact .resetWith legal 0 []
  | issue s more _ ih => exact ih.withEvents (s.events ++ more)
  | step s t _ taken ih => exact stepKeepsInvariant s t ih taken

/-- Settles O13: the invariant holds in every reachable state; the bounds it does not name hold by the width of the
register. -/
theorem reachableStatesAreInBounds : Obligations.ReachableStatesAreInBounds := fun s reached =>
  have h := reached.inv
  ⟨h.msgLenLe, h.pktLenLe, Nat.le_of_lt_succ s.command.isLt, h.s1Le, h.s2Le, Nat.le_of_lt_succ s.rxCsum.isLt,
    Nat.le_of_lt_succ s.hCmd.isLt, h.ecodeLe, h.reservedZero⟩

end Sys2Proof.Machine
end

section
/-! PROOF. Which state a command touches, by the columns of the summary (spec/10_state.md R27), and which state it does not
even read: the accumulators (R18), and the bytes at and above the lengths (R12, R13). -/

namespace Sys2Proof.Machine

variable {s t u : State} {i : Instr}

/-! ## What each column's commands are -/

namespace Effect

theorem keeps_msg (h : Effect i s u) (hd : i ≠ .decode) (hh : i ≠ .hdrput) (hf : i ≠ .finish) : KeepsMsg s u := by
  cases h
  case decode | loseMsg => exact absurd rfl hd
  case hdrput => exact absurd rfl hh
  case finish => exact absurd rfl hf
  all_goals simp [KeepsMsg, KeepsMsgBytes]

theorem keeps_pkt (h : Effect i s u) (he : i ≠ .encode) (ht : i ≠ .term) (hs : i ≠ .strip) : KeepsPkt s u := by
  cases h
  case encode | losePkt => exact absurd rfl he
  case term => exact absurd rfl ht
  case strip => exact absurd rfl hs
  all_goals simp [KeepsPkt, KeepsPktBytes]

/-- `STRIP` takes the terminator off by the length alone. -/
theorem strip_keeps_pktBytes (h : Effect .strip s u) : KeepsPktBytes s u := by
  cases h <;> exact fun _ => rfl

theorem keeps_sums (h : Effect i s u) (hb : ∀ b, i ≠ .csbyte b) (hc : i ≠ .csclr) (hm : i ≠ .csmsg)
    (hf : i ≠ .finish) (ht : i ≠ .trlget) : KeepsSums s u := by
  cases h
  case csbyte b => exact absurd rfl (hb b)
  case csclr => exact absurd rfl hc
  case csmsg => exact absurd rfl hm
  case finish => exact absurd rfl hf
  case trlget => exact absurd rfl ht
  all_goals simp [KeepsSums]

theorem keeps_rxCsum (h : Effect i s u) (ht : i ≠ .trlget) : KeepsRxCsum s u := by
  cases h
  case trlget => exact absurd rfl ht
  all_goals simp [KeepsRxCsum]

theorem keeps_header (h : Effect i s u) (hg : i ≠ .hdrget) : KeepsHeader s u := by
  cases h
  case hdrget => exact absurd rfl hg
  all_goals simp [KeepsHeader]

end Effect

/-- Settles O49: a command is its effect and then `STATUS`, which is in no column of the statement; the effect keeps each
column but for its own commands. -/
theorem commandsWriteOnlyTheirColumns : Obligations.CommandsWriteOnlyTheirColumns := by
  intro i s t h
  obtain ⟨u, o, e, rfl, hu⟩ := exec_cases h
  refine ⟨hu.keeps_msg, hu.keeps_pkt, ?_, ⟨hu.keeps_cfg, hu.keeps_seq, hu.keeps_command⟩, hu.keeps_sums,
    hu.keeps_rxCsum, hu.keeps_header, hu.keeps_events, hu.keeps_response⟩
  rintro rfl
  exact hu.strip_keeps_pktBytes

/-! ## The accumulators are no input -/

/-- Settles O27: no branch but `CSBYTE`'s mentions the sums, so the two runs take the same branch, and where it sets the
sums it sets them to the same. -/
theorem onlyCsbyteReadsTheSums : Obligations.OnlyCsbyteReadsTheSums := by
  intro i s a b notCsbyte
  cases i with
  | csbyte x => exact absurd rfl (notCsbyte x)
  | csclr => exact ⟨_, _, exec_csclr s, exec_csclr _, rfl, fun _ => ⟨rfl, rfl⟩⟩
  | csmsg => exact ⟨_, _, exec_csmsg s, exec_csmsg _, rfl, fun _ => ⟨rfl, rfl⟩⟩
  | hdrput => exact ⟨_, _, exec_hdrput s, exec_hdrput _, rfl, by simp⟩
  | encode =>
    by_cases h : (cobsEnc s.message).length ≤ s.cfg.pktMax
    · exact ⟨_, _, exec_encode_fits h, exec_encode_fits h, rfl, by simp⟩
    · have h := Nat.lt_of_not_le h
      exact ⟨_, _, exec_encode_noSpace h, exec_encode_noSpace h, rfl, by simp⟩
  | term =>
    by_cases h : s.pktLen < s.cfg.pktMax
    · exact ⟨_, _, exec_term_fits h, exec_term_fits h, rfl, by simp⟩
    · have h := Nat.le_of_not_lt h
      exact ⟨_, _, exec_term_noSpace h, exec_term_noSpace h, rfl, by simp⟩
  | strip =>
    by_cases h : s.pktLen = 0 ∨ s.pkt.read (s.pktLen - 1) ≠ termByte
    · exact ⟨_, _, exec_strip_noTerm h, exec_strip_noTerm h, rfl, by simp⟩
    · obtain ⟨h0, hz⟩ := not_or.1 h
      have pos := Nat.pos_of_ne_zero h0
      have zero := not_not.1 hz
      exact ⟨_, _, exec_strip_found pos zero, exec_strip_found pos zero, rfl, by simp⟩
  | decode =>
    cases h : cobsDec s.packet s.cfg.msgMax with
    | ok d => exact ⟨_, _, exec_decode_ok h, exec_decode_ok h, rfl, by simp⟩
    | error e => exact ⟨_, _, exec_decode_error h, exec_decode_error h, rfl, by simp⟩
  | finish =>
    by_cases h : s.msgLen + csumSize ≤ s.cfg.msgMax
    · exact ⟨_, _, exec_finish_fits h, exec_finish_fits h, rfl, fun _ => ⟨rfl, rfl⟩⟩
    · have h := Nat.lt_of_not_le h
      exact ⟨_, _, exec_finish_noSpace h, exec_finish_noSpace h, rfl, by simp [CmdError.code]⟩
  | hdrget =>
    by_cases h : msgMin ≤ s.msgLen
    · exact ⟨_, _, exec_hdrget_long h, exec_hdrget_long h, rfl, by simp⟩
    · have h := Nat.lt_of_not_le h
      exact ⟨_, _, exec_hdrget_short h, exec_hdrget_short h, rfl, by simp⟩
  | trlget =>
    by_cases h : msgMin ≤ s.msgLen
    · exact ⟨_, _, exec_trlget_long h, exec_trlget_long h, rfl, fun _ => ⟨rfl, rfl⟩⟩
    · have h := Nat.lt_of_not_le h
      exact ⟨_, _, exec_trlget_short h, exec_trlget_short h, rfl, by simp [CmdError.code]⟩

/-! ## Bytes at and above the lengths are no input -/

/-- `t` differs from `s` at most in buffer bytes at and above `MSG_LEN` and `PKT_LEN`. -/
structure SameValid (s t : State) : Prop where
  others : t = { s with msg := t.msg, pkt := t.pkt }
  message : t.message = s.message
  packet : t.packet = s.packet

namespace SameValid

variable {s' : State}

theorem cfg_eq (h : SameValid s s') : s'.cfg = s.cfg := by rw [h.others]

theorem msgLen_eq (h : SameValid s s') : s'.msgLen = s.msgLen := by rw [h.others]

theorem pktLen_eq (h : SameValid s s') : s'.pktLen = s.pktLen := by rw [h.others]

theorem sums_eq (h : SameValid s s') : s'.sums = s.sums := by rw [h.others]; rfl

theorem outHeader_eq (h : SameValid s s') : s'.outHeader = s.outHeader := by rw [h.others]; rfl

theorem msg_read (h : SameValid s s') {k : Nat} (hk : k < s.msgLen) : s'.msg.read k = s.msg.read k :=
  Buffer.read_of_slice_eq (by simpa only [State.message, h.msgLen_eq] using h.message) k hk

theorem pkt_read (h : SameValid s s') {k : Nat} (hk : k < s.pktLen) : s'.pkt.read k = s.pkt.read k :=
  Buffer.read_of_slice_eq (by simpa only [State.packet, h.pktLen_eq] using h.packet) k hk

theorem msg_slice (h : SameValid s s') {lo hi : Nat} (hhi : hi ≤ s.msgLen) : s'.msg.slice lo hi = s.msg.slice lo hi :=
  Buffer.slice_congr fun _ _ hk => h.msg_read (by omega)

theorem pkt_slice (h : SameValid s s') {lo hi : Nat} (hhi : hi ≤ s.pktLen) : s'.pkt.slice lo hi = s.pkt.slice lo hi :=
  Buffer.slice_congr fun _ _ hk => h.pkt_read (by omega)

/-! The same update of both states keeps them alike. -/

theorem endCommand (h : SameValid s s') (o : Option CmdError) (e : Bool) :
    SameValid (s.endCommand o e) (s'.endCommand o e) :=
  ⟨congrArg (·.endCommand o e) h.others, h.message, h.packet⟩

theorem setSums (h : SameValid s s') (p : Byte × Byte) : SameValid (s.setSums p) (s'.setSums p) :=
  ⟨congrArg (·.setSums p) h.others, h.message, h.packet⟩

theorem setRxCsum (h : SameValid s s') (v : Half) : SameValid (s.setRxCsum v) (s'.setRxCsum v) :=
  ⟨congrArg (·.setRxCsum v) h.others, h.message, h.packet⟩

theorem setHeader (h : SameValid s s') (m w : Word) (q : DWord) (c : Byte) :
    SameValid (s.setHeader m w q c) (s'.setHeader m w q c) :=
  ⟨congrArg (·.setHeader m w q c) h.others, h.message, h.packet⟩

theorem setMsg (h : SameValid s s') {b b' : Buffer} {n : Nat} (same : b'.slice 0 n = b.slice 0 n) :
    SameValid (s.setMsg b n) (s'.setMsg b' n) :=
  ⟨congrArg (·.setMsg b' n) h.others, same, h.packet⟩

theorem setPkt (h : SameValid s s') {b b' : Buffer} {n : Nat} (same : b'.slice 0 n = b.slice 0 n) :
    SameValid (s.setPkt b n) (s'.setPkt b' n) :=
  ⟨congrArg (·.setPkt b' n) h.others, h.message, same⟩

theorem loseMsg (h : SameValid s s') : SameValid s.loseMsg s'.loseMsg :=
  ⟨by rw [h.others]; rfl, rfl, h.packet⟩

theorem losePkt (h : SameValid s s') : SameValid s.losePkt s'.losePkt :=
  ⟨by rw [h.others]; rfl, h.message, rfl⟩

end SameValid

/-- The same bytes written over two buffers that agree below where they start: the buffers agree up to where they end. -/
theorem Buffer.slice_writeAll_congr {b b' : Buffer} {i : Nat} (bytes : List Byte)
    (same : ∀ k, k < i → b'.read k = b.read k) :
    (b'.writeAll i bytes).slice 0 (i + bytes.length) = (b.writeAll i bytes).slice 0 (i + bytes.length) := by
  refine Buffer.slice_congr fun k _ hk => ?_
  simp only [Buffer.read_writeAll]
  split
  · rfl
  · exact same k (by omega)

/-- The two runs take the same branch, because its condition reads lengths, valid bytes and the configuration alone, and
make the same update of their states. -/
theorem exec_sameValid {s' : State} (i : Instr) (h : SameValid s s') :
    ∃ t t', exec i s = .next t ∧ exec i s' = .next t' ∧ SameValid t t' := by
  cases i with
  | csclr => exact ⟨_, _, exec_csclr s, exec_csclr s', (h.setSums _).endCommand _ _⟩
  | csbyte b =>
    refine ⟨_, _, exec_csbyte b s, exec_csbyte b s', ?_⟩
    rw [h.sums_eq]
    exact (h.setSums _).endCommand _ _
  | csmsg =>
    refine ⟨_, _, exec_csmsg s, exec_csmsg s', ?_⟩
    rw [h.message]
    exact (h.setSums _).endCommand _ _
  | encode =>
    by_cases fits : (cobsEnc s.message).length ≤ s.cfg.pktMax
    · refine ⟨_, _, exec_encode_fits fits, exec_encode_fits (by rwa [h.message, h.cfg_eq]), ?_⟩
      rw [h.message]
      exact (h.setPkt (by simp only [Buffer.slice_writeAll_zero])).endCommand _ _
    · have fits := Nat.lt_of_not_le fits
      exact ⟨_, _, exec_encode_noSpace fits, exec_encode_noSpace (by rwa [h.message, h.cfg_eq]),
        h.losePkt.endCommand _ _⟩
  | term =>
    by_cases fits : s.pktLen < s.cfg.pktMax
    · refine ⟨_, _, exec_term_fits fits, exec_term_fits (by rwa [h.pktLen_eq, h.cfg_eq]), ?_⟩
      rw [h.pktLen_eq]
      exact (h.setPkt (Buffer.slice_writeAll_congr [termByte] fun _ => h.pkt_read)).endCommand _ _
    · have fits := Nat.le_of_not_lt fits
      exact ⟨_, _, exec_term_noSpace fits, exec_term_noSpace (by rwa [h.pktLen_eq, h.cfg_eq]), h.endCommand _ _⟩
  | strip =>
    obtain empty | pos := Nat.eq_zero_or_pos s.pktLen
    · exact ⟨_, _, exec_strip_noTerm (.inl empty), exec_strip_noTerm (.inl (by rwa [h.pktLen_eq])), h.endCommand _ _⟩
    · have last : s'.pkt.read (s'.pktLen - 1) = s.pkt.read (s.pktLen - 1) := by
        rw [h.pktLen_eq, h.pkt_read (by omega)]
      by_cases zero : s.pkt.read (s.pktLen - 1) = termByte
      · refine ⟨_, _, exec_strip_found pos zero, exec_strip_found (by rwa [h.pktLen_eq]) (last.trans zero), ?_⟩
        rw [h.pktLen_eq]
        exact (h.setPkt (h.pkt_slice (by omega))).endCommand _ _
      · exact ⟨_, _, exec_strip_noTerm (.inr zero), exec_strip_noTerm (.inr (by rwa [last])), h.endCommand _ _⟩
  | decode =>
    cases decoded : cobsDec s.packet s.cfg.msgMax with
    | ok d =>
      refine ⟨_, _, exec_decode_ok decoded, exec_decode_ok (d := d) (by rwa [h.packet, h.cfg_eq]), ?_⟩
      rw [h.pktLen_eq]
      exact (h.setMsg (by simp only [Buffer.slice_writeAll_zero])).endCommand _ _
    | error e =>
      refine ⟨_, _, exec_decode_error decoded, exec_decode_error (e := e) (by rwa [h.packet, h.cfg_eq]), ?_⟩
      rw [h.pktLen_eq]
      exact h.loseMsg.endCommand _ _
  | hdrput =>
    refine ⟨_, _, exec_hdrput s, exec_hdrput s', ?_⟩
    rw [h.outHeader_eq, show hdrSize = (packHdr s.outHeader).length from (packHdr_length _).symm]
    exact (h.setMsg (by simp only [Buffer.slice_writeAll_zero])).endCommand _ _
  | finish =>
    by_cases fits : s.msgLen + csumSize ≤ s.cfg.msgMax
    · refine ⟨_, _, exec_finish_fits fits, exec_finish_fits (by rwa [h.msgLen_eq, h.cfg_eq]), ?_⟩
      rw [h.message, h.msgLen_eq]
      exact ((h.setSums _).setMsg (Buffer.slice_writeAll_congr [_, _] fun _ => h.msg_read)).endCommand _ _
    · have fits := Nat.lt_of_not_le fits
      exact ⟨_, _, exec_finish_noSpace fits, exec_finish_noSpace (by rwa [h.msgLen_eq, h.cfg_eq]), h.endCommand _ _⟩
  | hdrget =>
    by_cases long : msgMin ≤ s.msgLen
    · refine ⟨_, _, exec_hdrget_long long, exec_hdrget_long (by rwa [h.msgLen_eq]), ?_⟩
      rw [h.msg_slice ((show hdrSize ≤ msgMin by decide).trans long)]
      exact (h.setHeader _ _ _ _).endCommand _ _
    · have short := Nat.lt_of_not_le long
      exact ⟨_, _, exec_hdrget_short short, exec_hdrget_short (by rwa [h.msgLen_eq]), h.endCommand _ _⟩
  | trlget =>
    by_cases long : msgMin ≤ s.msgLen
    · refine ⟨_, _, exec_trlget_long long, exec_trlget_long (by rwa [h.msgLen_eq]), ?_⟩
      rw [h.msgLen_eq, h.msg_slice (Nat.le_refl _), h.msg_slice (Nat.sub_le _ _)]
      exact ((h.setRxCsum _).setSums _).endCommand _ _
    · have short := Nat.lt_of_not_le long
      exact ⟨_, _, exec_trlget_short short, exec_trlget_short (by rwa [h.msgLen_eq]), h.endCommand _ _⟩

/-- Settles O50: buffers that agree below the lengths hold the same message and packet, and every command keeps that. -/
theorem bytesBeyondTheLengthDoNotMatter : Obligations.BytesBeyondTheLengthDoNotMatter := by
  rintro i s _ m p rfl sameMsg samePkt
  have start : SameValid s { s with msg := m, pkt := p } :=
    ⟨rfl, Buffer.slice_congr fun k _ => sameMsg k, Buffer.slice_congr fun k _ => samePkt k⟩
  obtain ⟨t, t', ht, ht', same⟩ := exec_sameValid i start
  exact ⟨t, t', ht, ht', same.others, same.message, same.packet⟩

end Sys2Proof.Machine
end

section
/-! PROOF. One step at its simplest: nothing issued, a command word issued (spec/10_state.md R22), and the state every run
starts in (R25). -/

namespace Sys2Proof.Machine

variable {s : State}

/-- What the decoder reads from a table row is what it reads from the row's word (log entry 15). -/
theorem decodeTableWord_some {nbits w : Nat} {i : Instr} (h : decodeTableWord nbits w = some i) :
    decodeWord (BitVec.ofNat 32 (w % 2 ^ nbits)) = .ok i := by
  unfold decodeTableWord at h
  split at h
  · split at h
    · cases h; assumption
    · cases h
  · cases h

theorem step_commandEvent {w : Nat} {rest : List BusEvent} {i : Instr} (issued : s.events = commandEvent w :: rest)
    (decoded : decodeWord (BitVec.ofNat 32 w) = .ok i) :
    step s = respondOkay (exec i { s with events := rest }) := by
  rw [step_event issued, ← runCommandWord_ok decoded]
  rfl

/-- Settles O5: a word is issued either by the host or by `withFetchWord`, whose event is in front of the rest. -/
theorem stepRunsTheDecodedCommand : Obligations.StepRunsTheDecodedCommand :=
  ⟨fun _ _ _ _ issued decoded => step_commandEvent issued decoded,
    fun s w _ decoded => step_commandEvent (s := s.withFetchWord 32 w) rfl (decodeTableWord_some decoded)⟩

/-- Settles O6: the model's choice, log entry 2. -/
theorem idleStepChangesNothing : Obligations.IdleStepChangesNothing := fun _ => step_idle

/-- Settles O10: the fields are those of `resetWith`, and the bus views of zero registers read zero. -/
theorem resetState : Obligations.ResetState := by
  rintro c d ev _ rfl
  refine ⟨fun _ => rfl, fun _ => rfl, ?_⟩
  simp [State.readReg, State.csum, State.sums, csumOf, State.ecode, State.empty]

end Sys2Proof.Machine
end

section
/-! PROOF. The host port (spec/20_memory.md): the register file of R32, what a bus read answers (R33), which writes are
accepted (R34, R35), every other access refused without a change (R36), and the windows as plain memory. -/

namespace Sys2Proof.Machine

variable {s t : State} {rest : List BusEvent}

/-! ## The values read (R32) -/

theorem toNat_extractLsb'_lo (v : DWord) : (v.extractLsb' 0 32).toNat = v.toNat % 2 ^ 32 := by
  rw [BitVec.extractLsb'_toNat, Nat.shiftRight_zero]

theorem toNat_extractLsb'_hi (v : DWord) : (v.extractLsb' 32 32).toNat = v.toNat / 2 ^ 32 := by
  have := v.isLt
  rw [BitVec.extractLsb'_toNat, Nat.shiftRight_eq_div_pow]
  omega

/-- `STATUS` is made of its three fields (R21). -/
theorem State.status_toNat (s : State) :
    s.status.toNat = s.ecode.toNat + 16 * s.empty.toNat + 32 * s.statusReserved.toNat := by
  have := s.status.isLt
  simp only [State.ecode, State.empty, State.statusReserved, BitVec.getLsbD, Nat.toNat_testBit,
    BitVec.extractLsb'_toNat, Nat.shiftRight_eq_div_pow]
  omega

/-- Settles O16: a legal size, and a length that its buffer has room for, fit a word, so none is cut off on the bus; the
two composed registers are sums of their parts. -/
theorem registerFileMap : Obligations.RegisterFileMap := by
  refine ⟨fun r => ⟨regAt_offset r, regOffset_mod r⟩, fun _ _ => regAt_some, rfl, fun s hs => ?_⟩
  obtain ⟨-, msgMaxLe, -, pktMaxLe⟩ := Config.legal_bounds hs.cfgLegal
  have sizeFits {n : Nat} (h : n ≤ 65536) : (BitVec.ofNat 32 n).toNat = n := by
    rw [BitVec.toNat_ofNat, Nat.mod_eq_of_lt (by omega)]
  have status : s.status.toNat = s.ecode.toNat + 16 * s.empty.toNat := by
    rw [s.status_toNat, hs.reservedZero]; rfl
  have csum : (s.csum.zeroExtend 32).toNat = 256 * s.s2.toNat + s.s1.toNat :=
    (BitVec.toNat_setWidth_of_le (by decide)).trans (csumOf_toNat s.sums)
  exact ⟨rfl, congrArg some status, congrArg some (sizeFits (hs.msgLenLe.trans msgMaxLe)),
    congrArg some (sizeFits (hs.pktLenLe.trans pktMaxLe)), congrArg some (toNat_extractLsb'_lo s.seq),
    congrArg some (toNat_extractLsb'_hi s.seq), congrArg some (BitVec.toNat_setWidth_of_le (by decide)),
    congrArg some csum, congrArg some (BitVec.toNat_setWidth_of_le (by decide)), rfl, rfl,
    congrArg some (toNat_extractLsb'_lo s.hSeq), congrArg some (toNat_extractLsb'_hi s.hSeq),
    congrArg some (BitVec.toNat_setWidth_of_le (by decide)), rfl, rfl, congrArg some (sizeFits msgMaxLe),
    congrArg some (sizeFits pktMaxLe)⟩

/-! ## Reads (R33) -/

theorem readReg_of_readable {r : Reg} (h : r.access ≠ .wo) (s : State) : ∃ v, s.readReg r = some v := by
  cases r with
  | cmd => exact absurd rfl h
  | _ => exact ⟨_, rfl⟩

/-- A register's value does not depend on what the host has issued, nor on the last response. -/
theorem State.readReg_port (s : State) (events : List BusEvent) (response : Option Response) (r : Reg) :
    State.readReg { s with events := events, response := response } r = s.readReg r := by
  cases r <;> rfl

/-- A bus read changes nothing but the record of the response. -/
theorem step_read {addr n : Nat} (h : s.events = .read addr n :: rest) :
    step s = .next { s with events := rest, response := some (memRead s addr n) } := by
  rw [step_event h]; rfl

theorem memRead_reg {r : Reg} {v : Word} (h : s.readReg r = some v) : memRead s r.offset 4 = .okayWord v := by
  simp only [memRead, if_true, regAt_offset, h]

theorem memRead_window (legal : s.cfg.legal = true) {b : Buf} {addr : Nat} (h : InWindow s b addr) :
    memRead s addr 1 = .okayByte ((s.buffer b).read (addr - b.base)) := by
  simp [memRead, State.windowAt_in legal h]

/-- The reads that are refused: not of a readable register, and not of a byte in a window. -/
theorem memRead_error {addr n : Nat} (noReg : ¬ ∃ r : Reg, n = 4 ∧ addr = r.offset ∧ r.access ≠ .wo)
    (noByte : ¬ ∃ b : Buf, n = 1 ∧ InWindow s b addr) : memRead s addr n = .error := by
  unfold memRead
  split
  case isTrue h4 =>
    cases hr : regAt addr with
    | none => rfl
    | some r =>
      cases r with
      | cmd => rfl
      | _ => exact absurd ⟨_, h4, regAt_some hr, nofun⟩ noReg
  case isFalse =>
    split
    case isTrue h1 => rw [State.windowAt_none fun b inside => noByte ⟨b, h1, inside⟩]
    case isFalse => rfl

/-- Settles O15: `memRead` answers the registers, the windows and everything else as R33 says. -/
theorem busReadAnswers : Obligations.BusReadAnswers := by
  intro s addr n rest legal issued
  refine ⟨_, step_read issued, ?_, ?_, memRead_error⟩
  · rintro r rfl rfl readable
    obtain ⟨v, hv⟩ := readReg_of_readable readable s
    exact ⟨v, hv, memRead_reg hv⟩
  · rintro b rfl inside
    exact memRead_window legal inside

/-! ## Register writes (R34, R35) -/

/-- A write of a register is accepted exactly if the host may write the register and the value is legal. -/
theorem writeReg_isSome_iff {r : Reg} {v : Word} :
    (s.writeReg r v).isSome ↔ r.access = .rw ∧ LegalValue s r v := by
  cases r <;> simp [State.writeReg, Reg.access, LegalValue]

theorem writeReg_none {r : Reg} {v : Word} (h : ¬ (r.access = .rw ∧ LegalValue s r v)) : s.writeReg r v = none := by
  rwa [← writeReg_isSome_iff, Option.not_isSome_iff_eq_none] at h

/-- An accepted value is read back: no bit of a legal value is lost. -/
theorem writeReg_readReg_same {r : Reg} {v : Word} (h : s.writeReg r v = some t) : t.readReg r = some v := by
  cases r <;> simp only [State.writeReg] at h
  case msgLen | pktLen => split at h <;> cases h; simp [State.readReg]
  case seqLo => cases h; exact congrArg some BitVec.extractLsb'_append_eq_right
  case seqHi => cases h; exact congrArg some BitVec.extractLsb'_append_eq_left
  case command =>
    split at h <;> cases h
    refine congrArg some (BitVec.eq_of_toNat_eq ?_)
    simp only [BitVec.truncate_eq_setWidth, BitVec.toNat_setWidth]
    omega
  all_goals cases h

/-- No other register reads differently: the two halves of `SEQ` are written apart. -/
theorem writeReg_readReg_ne {r r' : Reg} {v : Word} (h : s.writeReg r v = some t) (ne : r' ≠ r) :
    t.readReg r' = s.readReg r' := by
  cases r <;> simp only [State.writeReg] at h
  case msgLen | pktLen | command => split at h <;> cases h; cases r' <;> trivial
  case seqLo =>
    cases h
    cases r' with
    | seqLo => exact absurd rfl ne
    | seqHi => exact congrArg some BitVec.extractLsb'_append_eq_left
    | _ => rfl
  case seqHi =>
    cases h
    cases r' with
    | seqHi => exact absurd rfl ne
    | seqLo => exact congrArg some BitVec.extractLsb'_append_eq_right
    | _ => rfl
  all_goals cases h

/-- A write of a register other than `CMD` as a step, accepted or not. -/
theorem step_write_reg {r : Reg} {v : Nat} (h : s.events = .write r.offset 4 v :: rest) (hr : r ≠ .cmd) :
    step s = .next (memWriteReg { s with events := rest } r (BitVec.ofNat 32 v)) := by
  rw [step_event h]; exact memWrite_reg hr _ v

theorem memWriteReg_refused {r : Reg} {v : Word} (h : ¬ (r.access = .rw ∧ LegalValue s r v)) :
    memWriteReg s r v = s.respond .error := by
  rw [memWriteReg, writeReg_none h]

/-- Any word may be written to `CMD` (R22): the command runs to its end, and the write is answered. -/
theorem step_write_cmd {w : Nat} (h : s.events = .write (Reg.offset .cmd) 4 w :: rest) :
    ∃ t, step s = .next t ∧ t.response = some .okay := by
  obtain ⟨-, u, o, e, ends, -⟩ := runCommandWord_ends (BitVec.ofNat 32 w) { s with events := rest }
  refine ⟨(u.endCommand o e).respond .okay, ?_, rfl⟩
  rw [step_event h]
  show memWrite _ 0x00 4 _ = _
  rw [memWrite_cmd, ends]; rfl

/-- Settles O17: a legal value is accepted by `writeReg_isSome_iff`, and nothing but the register reads differently. -/
theorem registerWritesTakeLegalValues : Obligations.RegisterWritesTakeLegalValues := by
  refine ⟨fun s r v rest issued writable _ => ?_, fun _ _ _ issued => step_write_cmd issued⟩
  have hr : r ≠ .cmd := by rintro rfl; cases writable
  rw [step_write_reg issued hr]
  refine ⟨fun legal => ?_, fun illegal => ?_⟩
  · obtain ⟨t, written⟩ := Option.isSome_iff_exists.1 <|
      writeReg_isSome_iff (s := { s with events := rest }).2 ⟨writable, legal⟩
    have frame := writeReg_frame written
    refine ⟨t.respond .okay, by rw [memWriteReg, written], rfl, congrArg State.events frame, ?_, fun r' ne => ?_,
      fun i => congrArg (·.msg.read i) frame, fun i => congrArg (·.pkt.read i) frame⟩
    · exact (State.readReg_port ..).trans (writeReg_readReg_same written)
    · exact (State.readReg_port t ..).trans ((writeReg_readReg_ne written ne).trans (State.readReg_port s ..))
  · exact congrArg Host.Outcome.next (memWriteReg_refused (s := { s with events := rest }) fun h => illegal h.2)

/-! ## Refused accesses (R34, R36) -/

/-- The writes that are refused: not to `CMD`, not of a legal value to a host-writable register, not of a byte in a
window. -/
theorem memWrite_error {addr n v : Nat} (notCmd : ¬ (n = 4 ∧ addr = 0x00))
    (noReg : ¬ ∃ r : Reg, n = 4 ∧ addr = r.offset ∧ r.access = .rw ∧ LegalValue s r (BitVec.ofNat 32 v))
    (noByte : ¬ ∃ b : Buf, n = 1 ∧ InWindow s b addr) : memWrite s addr n v = .next (s.respond .error) := by
  by_cases h4 : n = 4
  · subst h4
    cases hr : regAt addr with
    | none => simp [memWrite, hr]
    | some r =>
      obtain rfl := regAt_some hr
      have hc : r ≠ .cmd := by rintro rfl; exact notCmd ⟨rfl, rfl⟩
      rw [memWrite_reg hc, memWriteReg_refused fun h => noReg ⟨r, rfl, rfl, h⟩]
  · by_cases h1 : n = 1
    · subst h1
      rw [memWrite_byte, memWriteWindow, State.windowAt_none fun b inside => noByte ⟨b, rfl, inside⟩]
    · simp [memWrite, h4, h1]

/-- Settles O19: what a step does with a write is `memWrite`, of the state with the event taken. -/
theorem otherWritesAreRefused : Obligations.OtherWritesAreRefused := by
  intro s addr n v rest issued notCmd noReg noByte
  rw [step_event issued]
  exact memWrite_error notCmd noReg noByte

/-- The event is answered `ERROR` and does nothing else. -/
def Refused (s : State) (e : BusEvent) : Prop := runEvent s e = .next (s.respond .error)

theorem refused_read {addr n : Nat} (h : memRead s addr n = .error) : Refused s (.read addr n) := by
  simp only [Refused, runEvent, h]

/-- An access that is neither a word at a register's offset nor a byte in a window is refused, read or written. -/
theorem refused_of_unmapped {addr n : Nat} (noReg : n = 4 → ∀ r : Reg, addr ≠ r.offset)
    (noByte : n = 1 → ∀ b, ¬ InWindow s b addr) :
    Refused s (.read addr n) ∧ ∀ v, Refused s (.write addr n v) := by
  have noWindow : ¬ ∃ b : Buf, n = 1 ∧ InWindow s b addr := fun ⟨b, h1, inside⟩ => noByte h1 b inside
  exact ⟨refused_read (memRead_error (fun ⟨r, h4, here, _⟩ => noReg h4 r here) noWindow),
    fun v => memWrite_error (fun ⟨h4, here⟩ => noReg h4 .cmd here) (fun ⟨r, h4, here, _⟩ => noReg h4 r here) noWindow⟩

theorem word_refused {addr : Nat} (noReg : ∀ r : Reg, addr ≠ r.offset) :
    Refused s (.read addr 4) ∧ ∀ v, Refused s (.write addr 4 v) :=
  refused_of_unmapped (fun _ => noReg) (fun h => absurd h (by decide))

theorem byte_refused {addr : Nat} (noWindow : ∀ b, ¬ InWindow s b addr) :
    Refused s (.read addr 1) ∧ ∀ v, Refused s (.write addr 1 v) :=
  refused_of_unmapped (fun h => absurd h (by decide)) (fun _ => noWindow)

/-- A write of a register that the host may not write, or of a value that the register does not take. -/
theorem register_refused {r : Reg} {v : Nat} (hr : r ≠ .cmd)
    (h : ¬ (r.access = .rw ∧ LegalValue s r (BitVec.ofNat 32 v))) : Refused s (.write r.offset 4 v) := by
  simp only [Refused, runEvent, memWrite_reg hr, memWriteReg_refused h]

theorem regOffset_ne_of_misaligned {addr : Nat} (h : addr % 4 ≠ 0) (r : Reg) : addr ≠ r.offset := by
  rintro rfl; exact h (regOffset_mod r)

/-- The word that a register's offset falls in starts there. -/
theorem regOffset_ne_of_word_ne {addr : Nat} (h : ∀ r : Reg, addr / 4 * 4 ≠ r.offset) (r : Reg) : addr ≠ r.offset := by
  rintro rfl
  have := regOffset_mod r
  exact h r (by omega)

/-- The windows stand above the register file (R31). -/
theorem InWindow.regFile_le {b : Buf} {addr : Nat} (h : InWindow s b addr) : 0x50 ≤ addr :=
  Nat.le_trans (by cases b <;> decide) h.1

theorem InWindow.ne_regOffset {b : Buf} {addr : Nat} (h : InWindow s b addr) (r : Reg) : addr ≠ r.offset :=
  Nat.ne_of_gt (Nat.lt_of_lt_of_le (regOffset_lt r) h.regFile_le)

/-- Every access that R36 lists, kind by kind; what is issued beyond it plays no part. -/
theorem RefusedAccess.refused {e : BusEvent} (h : RefusedAccess s e) (rest : List BusEvent) :
    Refused { s with events := rest } e := by
  cases h with
  | readSize addr n size => exact (refused_of_unmapped (absurd · size.2) (absurd · size.1)).1
  | writeSize addr n v size => exact (refused_of_unmapped (absurd · size.2) (absurd · size.1)).2 v
  | readMisaligned addr misaligned => exact (word_refused (regOffset_ne_of_misaligned misaligned)).1
  | writeMisaligned addr v misaligned => exact (word_refused (regOffset_ne_of_misaligned misaligned)).2 v
  | readWindowWord b addr inside => exact (word_refused inside.ne_regOffset).1
  | writeWindowWord b addr v inside => exact (word_refused inside.ne_regOffset).2 v
  | readRegByte addr low => exact (byte_refused fun b inside => Nat.not_le_of_lt low inside.regFile_le).1
  | writeRegByte addr v low => exact (byte_refused fun b inside => Nat.not_le_of_lt low inside.regFile_le).2 v
  | readCmd => exact refused_read rfl
  | writeReadOnly r v ro =>
    exact register_refused (by rintro rfl; cases ro) fun ⟨writable, _⟩ => by cases ro.symm.trans writable
  | illegalValue r v writable fits illegal => exact register_refused (by rintro rfl; cases writable) (illegal ·.2)
  | readUnmapped addr n noReg noWindow =>
    have clear : ∀ b, ¬ InWindow { s with events := rest } b addr := noWindow
    exact (refused_of_unmapped (fun _ => regOffset_ne_of_word_ne noReg) fun _ => clear).1
  | writeUnmapped addr n v noReg noWindow =>
    have clear : ∀ b, ¬ InWindow { s with events := rest } b addr := noWindow
    exact (refused_of_unmapped (fun _ => regOffset_ne_of_word_ne noReg) fun _ => clear).2 v

/-- Settles O18: the step takes the event, and the access is refused in the state it is taken in. -/
theorem refusedAccessesChangeNothing : Obligations.RefusedAccessesChangeNothing := by
  intro s e rest issued listed
  rw [step_event issued]
  exact listed.refused rest

/-! ## The windows (R34, R43) -/

@[simp] theorem State.buffer_pokeByte_same (s : State) (b : Buf) (i : Nat) (v : Byte) :
    (s.pokeByte b i v).buffer b = (s.buffer b).write i v := by
  cases b <;> rfl

theorem State.buffer_pokeByte_ne (s : State) {b c : Buf} (h : c ≠ b) (i : Nat) (v : Byte) :
    (s.pokeByte b i v).buffer c = s.buffer c := by
  cases b <;> cases c <;> trivial

/-- A window write is of one byte of one buffer. -/
theorem State.pokeByte_read (s : State) (b c : Buf) (i j : Nat) (v : Byte) :
    ((s.pokeByte b i v).buffer c).read j = if c = b ∧ j = i then v else (s.buffer c).read j := by
  by_cases hc : c = b
  · subst hc
    simp only [State.buffer_pokeByte_same, Buffer.read_write, true_and, eq_comm]
  · simp only [s.buffer_pokeByte_ne hc, hc, false_and, if_false]

/-- A window write keeps the lengths, `STATUS` and every other register. -/
theorem State.pokeByte_frame (s : State) (b : Buf) (i : Nat) (v : Byte) :
    s.pokeByte b i v = { s with msg := (s.pokeByte b i v).msg, pkt := (s.pokeByte b i v).pkt } := by
  cases b <;> rfl

/-- A byte written inside a window, as a step. -/
theorem step_write_window {b : Buf} {addr v : Nat} (h : s.events = .write addr 1 v :: rest)
    (legal : s.cfg.legal = true) (inside : InWindow s b addr) :
    step s =
      .next { s.pokeByte b (addr - b.base) (BitVec.ofNat 8 v) with events := rest, response := some .okay } := by
  rw [step_event h]
  show memWrite _ addr 1 v = _
  rw [memWrite_byte, memWriteWindow, State.windowAt_in (s := { s with events := rest }) legal inside]
  cases b <;> rfl

/-- Settles O20: the bytes by `pokeByte_read`, everything else by `pokeByte_frame`. -/
theorem windowWriteChangesOneByte : Obligations.WindowWriteChangesOneByte := by
  intro s b addr v rest legal issued inside
  have read := s.pokeByte_read b (v := BitVec.ofNat 8 v) (i := addr - b.base)
  have frame := s.pokeByte_frame b (addr - b.base) (BitVec.ofNat 8 v)
  refine ⟨_, step_write_window issued legal inside, rfl, rfl, (read b _).trans (if_pos ⟨rfl, rfl⟩),
    fun c i other => (read c i).trans (if_neg other), ?_⟩
  rw [frame]
  exact ⟨rfl, rfl, rfl, ⟨rfl, rfl, rfl⟩, ⟨rfl, rfl⟩, rfl, rfl, rfl, rfl, rfl⟩

/-- In a legal configuration the windows do not overlap, so no two offsets reach one byte. -/
theorem InWindow.same_byte_iff (legal : s.cfg.legal = true) {b c : Buf} {addr addr' : Nat} (h : InWindow s b addr)
    (h' : InWindow s c addr') : c = b ∧ addr' - c.base = addr - b.base ↔ addr' = addr := by
  constructor
  · rintro ⟨rfl, same⟩
    obtain ⟨low, -⟩ := h
    obtain ⟨low', -⟩ := h'
    omega
  · rintro rfl
    have both := (State.windowAt_in legal h').symm.trans (State.windowAt_in legal h)
    exact Prod.mk.inj (Option.some.inj both)

/-- Settles O21: the read reaches the byte that was written exactly if it is at the same offset. -/
theorem windowReadSeesTheWrite : Obligations.WindowReadSeesTheWrite := by
  intro s b c addr addr' v rest legal issued inside inside'
  have cfg := s.pokeByte_cfg b (addr - b.base) (BitVec.ofNat 8 v)
  rw [runSteps_succ (step_write_window issued legal inside), runSteps_succ (step_read rfl)]
  refine ⟨_, rfl, rfl, congrArg some ?_⟩
  rw [memRead_window (b := c)]
  · refine congrArg Response.okayByte ((s.pokeByte_read ..).trans ?_)
    simp only [inside.same_byte_iff legal inside']
  · exact (congrArg Config.legal cfg).trans legal
  · rw [InWindow, cfg]; exact inside'

end Sys2Proof.Machine
end

section
/-! PROOF. Command words (spec/30_encoding.md R50 to R53): a word and its fields determine each other, the fields of a
command are exactly the legal ones, the opcode map by mask and match, and what an illegal word does. -/

namespace Sys2Proof.Machine

variable {w : Word} {i : Instr} {f : CommandFields}

/-! ## A word and its fields (R50) -/

/-- The three fields are all of the word. -/
theorem commandWord_commandFields (w : Word) : commandWord (commandFields w) = w := by
  simp only [commandWord, commandFields]
  rw [BitVec.extractLsb'_append_extractLsb'_eq_extractLsb' (len₂ := 16) (len₁ := 8) rfl,
    BitVec.extractLsb'_append_extractLsb'_eq_extractLsb' (len₂ := 24) (len₁ := 8) rfl, BitVec.extractLsb'_eq_self]

theorem commandFields_commandWord (f : CommandFields) : commandFields (commandWord f) = f := by
  have imm8 : (f.zero ++ f.imm8 ++ f.op).extractLsb' 8 8 = f.imm8 := by
    rw [BitVec.extractLsb'_append_eq_of_le (by decide)]
    exact BitVec.extractLsb'_append_eq_right
  have zero : (f.zero ++ f.imm8 ++ f.op).extractLsb' 16 16 = f.zero := by
    rw [BitVec.extractLsb'_append_eq_of_le (by decide)]
    exact BitVec.extractLsb'_append_eq_left
  simp only [commandFields, commandWord, imm8, zero, BitVec.extractLsb'_append_eq_right]

theorem commandWord_inj {g : CommandFields} : commandWord f = commandWord g ↔ f = g :=
  ⟨fun h => by rw [← commandFields_commandWord f, h, commandFields_commandWord], congrArg commandWord⟩

theorem commandFields_eq_iff : commandFields w = f ↔ w = commandWord f := by
  rw [← commandWord_inj, commandWord_commandFields]

/-! ## Which fields are a command (R50, R51) -/

/-- The types see to R50's conditions. -/
theorem instr_wellFormed (i : Instr) : i.wellFormed = true := by cases i <;> rfl

theorem plainCommand_fields {op : BitVec 8} (h : plainCommand op = some i) : i.fields = ⟨op, 0#8, 0#16⟩ := by
  have code (n : Nat) (hn : op.toNat = n) : op = BitVec.ofNat 8 n := by
    rw [← hn, BitVec.ofNat_toNat, BitVec.setWidth_eq]
  unfold plainCommand at h
  split at h <;> cases h <;> rw [code _ ‹_›] <;> rfl

/-- Every operation code of the map but `CSBYTE`'s names a command. -/
theorem plainCommand_ne_none : ∀ op ∈ opcodes, op ≠ 0x02#8 → plainCommand op ≠ none := by decide

/-- The fields of a command are those the encoder writes. -/
theorem decodeFields_ok (h : decodeFields f = .ok i) : f = i.fields := by
  obtain ⟨op, imm8, zero⟩ := f
  unfold decodeFields at h
  split at h
  · cases h
  have hz : zero = 0#16 := not_not.1 ‹_›
  split at h
  · have hop : op = 0x02#8 := ‹_›
    cases h
    rw [hz, hop]; rfl
  split at h
  · cases h
  split at h
  · cases h
  have himm : imm8 = 0#8 := not_not.1 ‹_›
  cases h
  rw [hz, himm, plainCommand_fields ‹_›]

/-- Each reason to reject the fields is one of R50's. -/
theorem decodeFields_error {x : DecodeError} (h : decodeFields f = .error x) :
    f.zero ≠ 0#16 ∨ f.op ∉ opcodes ∨ (f.op ≠ 0x02#8 ∧ f.imm8 ≠ 0#8) := by
  unfold decodeFields at h
  split at h
  · exact .inl ‹_›
  split at h
  · cases h
  have hop : f.op ≠ 0x02#8 := ‹_›
  split at h
  · exact .inr (.inl fun listed => plainCommand_ne_none _ listed hop ‹_›)
  split at h
  · exact .inr (.inr ⟨hop, ‹_›⟩)
  · cases h

theorem decodeWord_eq_ok_iff : decodeWord w = .ok i ↔ w = encode i := by
  constructor
  · intro h
    exact commandFields_eq_iff.1 (decodeFields_ok h)
  · rintro rfl
    exact decodeWord_encode i

/-- A command's word has 32 bits, so the table's numbering of it is the word. -/
theorem decodeTableWord_encode (i : Instr) : decodeTableWord 32 (encode i).toNat = some i := by
  have fits := (encode i).isLt
  simp only [decodeTableWord, Nat.mod_eq_of_lt fits, fits, if_true, BitVec.ofNat_toNat, BitVec.setWidth_eq,
    decodeWord_encode]

/-- Settles O1: the decoder accepts exactly the fields that the encoder writes, and a word is its fields. -/
theorem wordsAndCommandsCorrespond : Obligations.WordsAndCommandsCorrespond :=
  ⟨fun _ _ => decodeWord_eq_ok_iff, fun i => ⟨instr_wellFormed i, decodeTableWord_encode i⟩⟩

/-! ## Mask and match (R51, R52) -/

/-- A row with the full mask fixes every bit. -/
theorem decodeWord_eq_ok_iff_fullMask : decodeWord w = .ok i ↔ w &&& 0xFFFFFFFF#32 = encode i := by
  rw [decodeWord_eq_ok_iff, show w &&& 0xFFFFFFFF#32 = w from BitVec.and_allOnes]

/-- `CSBYTE`'s mask blanks out the immediate and keeps the two other fields. -/
theorem commandWord_and_csbyteMask (f : CommandFields) :
    commandWord f &&& 0xFFFF00FF#32 = commandWord ⟨f.op, 0#8, f.zero⟩ := by
  show (f.zero ++ f.imm8 ++ f.op) &&& (0xFFFF#16 ++ 0x00#8 ++ 0xFF#8) = _
  rw [BitVec.and_append, BitVec.and_append, BitVec.and_zero, show f.zero &&& 0xFFFF#16 = f.zero from BitVec.and_allOnes,
    show f.op &&& 0xFF#8 = f.op from BitVec.and_allOnes]
  rfl

theorem decodeWord_csbyte_iff_mask :
    (∃ b, decodeWord w = .ok (.csbyte b)) ↔ w &&& 0xFFFF00FF#32 = 0x00000002#32 := by
  have row : w &&& 0xFFFF00FF#32 = 0x00000002#32 ↔ (commandFields w).op = 0x02#8 ∧ (commandFields w).zero = 0#16 := by
    rw [← commandWord_commandFields w, commandWord_and_csbyteMask,
      show 0x00000002#32 = commandWord ⟨0x02#8, 0#8, 0#16⟩ from rfl, commandWord_inj, commandWord_commandFields]
    simp only [CommandFields.mk.injEq, true_and]
  rw [row]
  constructor
  · rintro ⟨b, h⟩
    have fields : commandFields w = (Instr.csbyte b).fields := decodeFields_ok h
    rw [fields]
    exact ⟨rfl, rfl⟩
  · rintro ⟨hop, hz⟩
    refine ⟨(commandFields w).imm8, ?_⟩
    rw [decodeWord, decodeFields, if_neg (not_not.2 hz), if_pos hop]

/-- The immediate is bits 15:8, taken as they are. -/
theorem decodeWord_csbyte_immediate {b : Byte} (h : decodeWord w = .ok (.csbyte b)) :
    b.toNat = w.toNat / 256 % 256 := by
  have imm8 : w.extractLsb' 8 8 = b := congrArg CommandFields.imm8 (decodeFields_ok h)
  rw [← imm8, BitVec.extractLsb'_toNat, Nat.shiftRight_eq_div_pow]

/-- Settles O2: every row but `CSBYTE`'s has the full mask, and its match is the encoder's word. -/
theorem opcodeMapMasksAndMatches : Obligations.OpcodeMapMasksAndMatches := fun _ =>
  ⟨decodeWord_eq_ok_iff_fullMask, decodeWord_csbyte_iff_mask, fun _ => decodeWord_csbyte_immediate,
    decodeWord_eq_ok_iff_fullMask, decodeWord_eq_ok_iff_fullMask, decodeWord_eq_ok_iff_fullMask,
    decodeWord_eq_ok_iff_fullMask, decodeWord_eq_ok_iff_fullMask, decodeWord_eq_ok_iff_fullMask,
    decodeWord_eq_ok_iff_fullMask, decodeWord_eq_ok_iff_fullMask, decodeWord_eq_ok_iff_fullMask⟩

/-! ## Illegal words (R53) -/

/-- R50's conditions on a word are those on its fields. -/
theorem illegalWord_iff_not_legal : IllegalWord w ↔ ¬ (commandFields w).legal = true := by
  simp only [IllegalWord, CommandFields.legal, commandFields, Bool.and_eq_true, Bool.or_eq_true, beq_iff_eq,
    List.contains_iff_mem]
  tauto

theorem not_illegalWord_encode (i : Instr) : ¬ IllegalWord (encode i) := by
  rw [illegalWord_iff_not_legal, not_not, encode, commandFields_commandWord]
  exact instr_wellFormed i

theorem illegalWord_iff : IllegalWord w ↔ ¬ ∃ i, decodeWord w = .ok i := by
  constructor
  · rintro illegal ⟨i, h⟩
    rw [decodeWord_eq_ok_iff.1 h] at illegal
    exact not_illegalWord_encode i illegal
  · intro h
    cases decoded : decodeWord w with
    | ok i => exact absurd ⟨i, decoded⟩ h
    | error x => exact decodeFields_error decoded

/-- Settles O4: a word is illegal exactly when the decoder rejects it, and then the command ends at once in
`E_ILLEGAL`. -/
theorem illegalWordsChangeOnlyStatus : Obligations.IllegalWordsChangeOnlyStatus := by
  refine ⟨fun _ => illegalWord_iff, .inr (.inl (by decide)), fun s w rest issued illegal => ?_⟩
  have rejected (i : Instr) : decodeWord (BitVec.ofNat 32 w) ≠ .ok i := fun h => illegalWord_iff.1 illegal ⟨i, h⟩
  refine ⟨(State.endCommand { s with events := rest } (some .illegal) false).respond .okay, ?_,
    endsIn_endCommand { s with events := rest } .illegal,
    keepsAllButStatus_endCommand s (some .illegal) false, rfl, rfl⟩
  rw [step_event issued]
  show memWrite _ 0x00 4 w = _
  rw [memWrite_cmd, runCommandWord_illegal rejected]
  rfl

end Sys2Proof.Machine
end

section
/-! PROOF. A Packet (spec/30_encoding.md R58): no byte of an encoding is zero, so the terminator is the first zero. -/

namespace Sys2Proof.Machine

variable {s : State}

/-! ## The encoder puts out no zero -/

/-- A closed run's length byte is at most 255, so it does not wrap to zero. -/
theorem ne_zero_of_mem_runRecord {run : List Byte} (hrun : ∀ b ∈ run, b ≠ 0x00#8) (short : run.length ≤ 254) :
    ∀ b ∈ runRecord run, b ≠ 0x00#8 := by
  refine List.forall_mem_cons.2 ⟨fun zero => ?_, hrun⟩
  have wraps : (run.length + 1) % 2 ^ 8 = 0 := congrArg BitVec.toNat zero
  omega

/-- The open run holds no zero and is closed before it has 255 bytes. -/
theorem ne_zero_of_mem_cobsEncFrom {run : List Byte} (hrun : ∀ b ∈ run, b ≠ 0x00#8) (short : run.length < 254)
    (rest : List Byte) : ∀ b ∈ cobsEncFrom run rest, b ≠ 0x00#8 := by
  induction rest generalizing run with
  | nil => exact ne_zero_of_mem_runRecord hrun short.le
  | cons b rest ih =>
    have fresh : ∀ x ∈ cobsEncFrom [] rest, x ≠ 0x00#8 := ih (by simp) (by simp)
    by_cases hb : b = 0x00#8
    · subst hb
      rw [cobsEncFrom_zero]
      exact List.forall_mem_append.2 ⟨ne_zero_of_mem_runRecord hrun short.le, fresh⟩
    · have longer : ∀ x ∈ run ++ [b], x ≠ 0x00#8 :=
        List.forall_mem_append.2 ⟨hrun, List.forall_mem_singleton.2 hb⟩
      have length : (run ++ [b]).length = run.length + 1 := by simp
      by_cases full : run.length + 1 = 254
      · rw [cobsEncFrom_full hb full]
        exact List.forall_mem_append.2 ⟨ne_zero_of_mem_runRecord longer (by omega), fresh⟩
      · rw [cobsEncFrom_more hb full]
        exact ih longer (by omega)

theorem ne_zero_of_mem_cobsEnc (m : List Byte) : ∀ b ∈ cobsEnc m, b ≠ 0x00#8 :=
  ne_zero_of_mem_cobsEncFrom (by simp) (by simp) m

/-! ## The packet, byte by byte -/

/-- A valid byte of `PKT` is the packet's byte at that index. -/
theorem State.pkt_read {p : List Byte} (h : s.packet = p) {i : Nat} (hi : i < p.length) : s.pkt.read i = p[i] := by
  subst h
  simp only [State.packet, Buffer.slice_getElem, Nat.zero_add]

/-- Where the zeros of a Packet are: at its end alone. -/
theorem packetOf_getElem_eq_zero_iff (m : List Byte) {i : Nat} (hi : i < (packetOf m).length) :
    (packetOf m)[i] = 0x00#8 ↔ i = (cobsEnc m).length := by
  by_cases inside : i < (cobsEnc m).length
  · simp only [packetOf, List.getElem_append_left inside, Nat.ne_of_lt inside, iff_false]
    exact ne_zero_of_mem_cobsEnc m _ (List.getElem_mem inside)
  · have last : i = (cobsEnc m).length := by
      simp only [packetOf, List.length_append, List.length_singleton] at hi
      omega
    subst last
    simp [packetOf, termByte]

/-- Settles O39: the two commands append the terminator to the encoding, whose bytes are not zero. -/
theorem encodeThenTermMakesAPacket : Obligations.EncodeThenTermMakesAPacket := by
  intro s room
  obtain ⟨u, encoded, -, uPacket, uLen, -, -, ⟨cfg, -, -⟩, -⟩ := exec_encode_packet room.le
  obtain ⟨t, termed, well, tPacket, tLen, -⟩ := exec_term_packet (s := u) (by rw [uLen, cfg]; exact room)
  have packet : t.packet = packetOf s.message := by rw [tPacket, uPacket]; rfl
  have len : (packetOf s.message).length = t.pktLen := by rw [← packet, State.packet_length]
  have zero_iff (i : Nat) (hi : i < t.pktLen) : t.pkt.read i = 0x00#8 ↔ i = t.pktLen - 1 := by
    rw [State.pkt_read packet (len.symm ▸ hi), packetOf_getElem_eq_zero_iff, tLen, uLen, Nat.add_sub_cancel]
  refine ⟨t, by rw [runCommands_cons encoded, runCommands_cons termed]; rfl, well, packet, by omega,
    (zero_iff _ (by omega)).2 rfl, fun i hi => (zero_iff i hi).1⟩

end Sys2Proof.Machine
end

section
/-! PROOF. The host script (spec/30_encoding.md R61, R62): which bus events each statement is, the values that reading
statements have, the two loads, and the keep-alive received (R60; spec/70_reset_and_hazards.md R144). -/

namespace Sys2Proof.Machine

variable {s : State} {rest : List BusEvent}

/-! ## Statements as events -/

/-- The word of `CSBYTE b` has `b` in bits 15:8 (R52). -/
theorem encode_csbyte_toNat (b : Byte) : (encode (.csbyte b)).toNat = 0x02 ||| (b.toNat <<< 8) := by
  show (0#16 ++ b ++ 0x02#8).toNat = _
  rw [BitVec.toNat_append, BitVec.toNat_append, Nat.or_comm]
  simp

/-- Settles O51: the offsets, sizes and values are those of the table; only the immediate's place needs an argument. -/
theorem scriptStatementEncodings : Obligations.ScriptStatementEncodings := by
  refine ⟨fun _ _ => rfl, fun _ => rfl, fun _ _ => ⟨rfl, rfl, rfl, rfl⟩, by decide, fun b => ?_, fun _ => rfl⟩
  rw [← encode_csbyte_toNat]
  rfl

theorem loadEvents_eq_scriptEvents (buf : Buf) (i : Nat) (bytes : List Byte) :
    loadEvents buf i bytes = scriptEvents ((bytes.zipIdx i).map fun p => .wrb buf p.2 p.1) := by
  induction bytes generalizing i with
  | nil => rfl
  | cons b bs ih => exact congrArg (writeByteEvent buf i b :: ·) (ih (i + 1))

theorem scriptEvents_append (xs ys : List Stmt) : scriptEvents (xs ++ ys) = scriptEvents xs ++ scriptEvents ys :=
  List.flatMap_append

/-! ## Reading statements -/

/-- What a bus read leaves of the block: all of it. -/
theorem keepsBlock_port (s : State) (events : List BusEvent) (response : Option Response) :
    KeepsBlock s { s with events := events, response := response } :=
  ⟨⟨⟨fun _ => rfl, rfl⟩, ⟨fun _ => rfl, rfl⟩, ⟨rfl, rfl, rfl⟩, ⟨rfl, rfl⟩, rfl, rfl, rfl, rfl, rfl⟩, rfl⟩

/-- Settles O58: a load is one byte write per byte, and the two halves of `H_SEQ` are read one after the other. -/
theorem pseudoStatementsExpandAsListed : Obligations.PseudoStatementsExpandAsListed := by
  refine ⟨fun _ => rfl, fun i bytes => loadEvents_eq_scriptEvents .msg i bytes, fun bytes => ?_, rfl, fun s => ?_⟩
  · rw [scriptEvents_append, ← loadEvents_eq_scriptEvents]
    rfl
  · exact ⟨_, _, _, rfl, rfl, runStmt_two rfl (step_readReg rfl rfl) rfl (step_readReg rfl rfl) rfl,
      joinHalves_extract s.hSeq, keepsBlock_port s _ _, rfl⟩

/-- What a read answers does not depend on what else the host has issued. -/
theorem memRead_events (s : State) (events : List BusEvent) (addr n : Nat) :
    memRead { s with events := events } addr n = memRead s addr n := by
  have buffer (b : Buf) : State.buffer { s with events := events } b = s.buffer b := by cases b <;> rfl
  simp only [memRead, State.readReg_port, buffer]
  rfl

/-- A statement of one bus read has the value of its answer, and leaves the block and what else is issued. -/
theorem runStmt_read {st : Stmt} {addr n : Nat} (one : stmtEvents st = [.read addr n]) (s : State) :
    ∃ t, runStmt st s = .next (t, stmtValue st [memRead s addr n]) ∧ KeepsBlock s t ∧ t.events = s.events := by
  have run := runStmt_one (s := s) one (step_read rfl) rfl
  rw [memRead_events] at run
  exact ⟨_, run, keepsBlock_port s _ _, rfl⟩

/-- Settles O59: each is one bus read, answered with the value or refused. -/
theorem readStatementsHaveTheirValues : Obligations.ReadStatementsHaveTheirValues := by
  refine ⟨fun s r v hv => ?_, runStmt_read (st := .rd .cmd) rfl, fun s b i legal hi => ?_⟩
  · have read := runStmt_read (st := .rd r) rfl s
    rwa [memRead_reg hv] at read
  · have read := runStmt_read (st := .rdb b i) rfl s
    have inside : InWindow s b (b.base + i) := ⟨Nat.le_add_right _ _, Nat.add_lt_add_left hi _⟩
    rwa [memRead_window legal inside, Nat.add_sub_cancel_left] at read

/-! ## Loads -/

/-- `LDPKT` as steps: the bytes written from index 0 on, and `PKT_LEN` set. -/
theorem runSteps_ldpkt {bytes : List Byte} (legal : s.cfg.legal = true) (fits : bytes.length ≤ s.cfg.pktMax)
    (h : s.events = stmtEvents (.ldpkt bytes) ++ rest) :
    runSteps (bytes.length + 1) s =
      .next { s with
        pkt := s.pkt.writeAll 0 bytes, pktLen := bytes.length, events := rest, response := some .okay } := by
  rw [stmtEvents, List.append_assoc] at h
  obtain ⟨r, loaded, -⟩ := runSteps_loadPkt legal (by omega) h
  rw [runSteps_add loaded]
  exact runSteps_succ (n := 0) (step_writePktLen rfl legal fits)

/-- Settles O52: the bytes written are read back, every byte outside them reads as before, and nothing else changes. -/
theorem loadStatementsFillTheBuffers : Obligations.LoadStatementsFillTheBuffers := by
  refine ⟨fun s bytes rest legal fits issued => ?_, fun s at_ bytes rest legal fits issued => ?_⟩
  · refine ⟨_, runSteps_ldpkt legal fits issued, rfl, rfl, Buffer.slice_writeAll_zero s.pkt bytes, fun i above => ?_,
      ⟨fun _ => rfl, rfl⟩, ⟨rfl, rfl, rfl⟩, ⟨rfl, rfl⟩, rfl, ⟨rfl, rfl, rfl, rfl⟩, rfl⟩
    exact Buffer.read_writeAll_out (.inr (by omega))
  · obtain ⟨r, loaded, -⟩ := runSteps_loadMsg legal fits issued
    exact ⟨_, loaded, rfl, Buffer.slice_writeAll s.msg at_ bytes, fun _ => Buffer.read_writeAll_out, rfl,
      ⟨fun _ => rfl, rfl⟩, ⟨rfl, rfl, rfl⟩, ⟨rfl, rfl⟩, rfl, ⟨rfl, rfl, rfl, rfl⟩, rfl⟩

/-! ## The keep-alive -/

/-- Settles O56: `STRIP` takes the one byte off, and `DECODE` of nothing writes nothing. -/
theorem keepAliveIsReportedEmpty : Obligations.KeepAliveIsReportedEmpty := by
  intro s rest legal issued
  obtain ⟨-, -, room, -⟩ := Config.legal_bounds legal
  have zero : (s.pkt.writeAll 0 [0x00#8]).read 0 = termByte := Buffer.read_writeAll_in Nat.one_pos
  refine runSteps_add_then (m := 2) (n := 3) (runSteps_ldpkt (bytes := [0x00#8]) legal room issued) ?_
  refine runSteps_then (step_issue (i := .strip) rfl (exec_strip_found Nat.one_pos zero)) ?_
  refine runSteps_then (step_issue (i := .decode) rfl (exec_decode_ok (d := []) rfl)) ?_
  refine runSteps_then (n := 0) (step_readReg rfl rfl) ?_
  have word : statusWord none true = 0x00000010#32 := by decide
  exact ⟨_, rfl, rfl, statusWord_ecode none true, statusWord_empty none true, rfl, rfl,
    congrArg (some ∘ Response.okayWord) word, fun _ => rfl⟩

end Sys2Proof.Machine
end

section
/-! PROOF. The checksum commands (spec/40_checksum.md R70 to R76): the fold streamed, its values modulo 255 and the closed
form they give, and the state in which each command ends. -/

namespace Sys2Proof.Machine

variable {s : State}

/-! ## The step and the fold -/

/-- Settles O22: the step is this arithmetic on any accumulators, and a remainder by 255 is at most 254. -/
theorem fletcherByteStep : Obligations.FletcherByteStep := fun p b _ _ =>
  ⟨flStep_fst p b, flStep_snd p b, flStep_le p b⟩

theorem fl16_nil : fl16 [] = 0#16 := rfl

theorem flFold_append (p : Byte × Byte) (l m : List Byte) : flFold p (l ++ m) = flFold (flFold p l) m := by
  induction l generalizing p with
  | nil => rfl
  | cons b t ih => exact ih (flStep p b)

/-- 255 is 0 modulo 255, so the step does not tell `0xFF` from `0x00`. -/
theorem flStep_ff (p : Byte × Byte) : flStep p 0xFF#8 = flStep p 0x00#8 := by
  have same : (p.1.toNat + 255) % 255 = (p.1.toNat + 0) % 255 := Nat.add_mod_right _ 255
  simp only [flStep, csumMod, BitVec.reduceToNat, same]

theorem flStep_zero_fst {p : Byte × Byte} (h : p.1.toNat ≤ 254) : (flStep p 0x00#8).1 = p.1 :=
  BitVec.eq_of_toNat_eq ((flStep_fst p _).trans (Nat.mod_eq_of_lt (Nat.lt_succ_of_le h)))

theorem flFold_eq_zero_of_zero_or_ff {bytes : List Byte} (h : ∀ x ∈ bytes, x = 0x00#8 ∨ x = 0xFF#8) :
    flFold (0#8, 0#8) bytes = (0#8, 0#8) := by
  induction bytes with
  | nil => rfl
  | cons b t ih =>
    obtain ⟨hb, ht⟩ := List.forall_mem_cons.1 h
    have step : flStep (0#8, 0#8) b = (0#8, 0#8) := by
      obtain rfl | rfl := hb
      · rfl
      · rfl
    rw [flFold_cons, step, ih ht]

/-! ## The closed form (R76 (f)) -/

/-- The sum of the bytes, each weighted by how many there are from it on. -/
def weightedSum (l : List Byte) : Nat :=
  ((List.range l.length).map fun i => (l.length - i) * (l.getD i 0#8).toNat).sum

theorem weightedSum_cons (b : Byte) (t : List Byte) :
    weightedSum (b :: t) = (t.length + 1) * b.toNat + weightedSum t := by
  simp [weightedSum, List.range_succ_eq_map, Function.comp_def]

theorem flFold_fst_modEq (p : Byte × Byte) (l : List Byte) :
    (flFold p l).1.toNat ≡ p.1.toNat + (l.map BitVec.toNat).sum [MOD 255] := by
  induction l generalizing p with
  | nil => rfl
  | cons b t ih =>
    have step : (flStep p b).1.toNat ≡ p.1.toNat + b.toNat [MOD 255] := flStep_fst p b ▸ Nat.mod_modEq _ _
    rw [flFold_cons, List.map_cons, List.sum_cons, ← Nat.add_assoc]
    exact (ih _).trans (step.add_right _)

/-- Each byte still to come adds the first accumulator to the second once more. -/
theorem flFold_snd_modEq (p : Byte × Byte) (l : List Byte) :
    (flFold p l).2.toNat ≡ p.2.toNat + l.length * p.1.toNat + weightedSum l [MOD 255] := by
  induction l generalizing p with
  | nil => exact congrArg (· % 255) (by simp [weightedSum])
  | cons b t ih =>
    have fst : (flStep p b).1.toNat ≡ p.1.toNat + b.toNat [MOD 255] := flStep_fst p b ▸ Nat.mod_modEq _ _
    have snd : (flStep p b).2.toNat ≡ p.2.toNat + (p.1.toNat + b.toNat) [MOD 255] :=
      flStep_snd p b ▸ (Nat.mod_modEq _ _).trans ((Nat.mod_modEq _ _).add_left _)
    calc (flFold p (b :: t)).2.toNat
      _ ≡ (flStep p b).2.toNat + t.length * (flStep p b).1.toNat + weightedSum t [MOD 255] := ih _
      _ ≡ p.2.toNat + (p.1.toNat + b.toNat) + t.length * (p.1.toNat + b.toNat) + weightedSum t [MOD 255] :=
        (snd.add (fst.mul_left _)).add_right _
      _ = p.2.toNat + (b :: t).length * p.1.toNat + weightedSum (b :: t) := by
        rw [weightedSum_cons, List.length_cons]; ring

theorem flSums_fst (l : List Byte) : (flSums l).1.toNat = (l.map BitVec.toNat).sum % 255 := by
  have fold : (flSums l).1.toNat % 255 = (0 + (l.map BitVec.toNat).sum) % 255 := flFold_fst_modEq _ l
  rwa [Nat.mod_eq_of_lt (Nat.lt_succ_of_le (flSums_le l).1), Nat.zero_add] at fold

theorem flSums_snd (l : List Byte) : (flSums l).2.toNat = weightedSum l % 255 := by
  have fold : (flSums l).2.toNat % 255 = (0 + l.length * 0 + weightedSum l) % 255 := flFold_snd_modEq _ l
  rwa [Nat.mod_eq_of_lt (Nat.lt_succ_of_le (flSums_le l).2), Nat.mul_zero, Nat.zero_add] at fold

/-! ## Single bit flips (R76 (e)) -/

/-- `S1` already tells apart two sequences that differ in one byte, unless the two bytes are equal modulo 255. -/
theorem toNat_mod_eq_of_fl16_set_eq {l : List Byte} {i : Nat} {a b : Byte} (inside : i < l.length)
    (h : fl16 (l.set i a) = fl16 (l.set i b)) : a.toNat % 255 = b.toNat % 255 := by
  have sums : (flSums (l.set i a)).1.toNat = (flSums (l.set i b)).1.toNat := by
    have value := congrArg BitVec.toNat h
    simp only [fl16, csumOf_toNat] at value
    omega
  simp only [flSums_fst, List.map_set, List.sum_set, List.length_map, if_pos inside] at sums
  omega

/-- Modulo 255 only `0x00` and `0xFF` are the same byte. -/
theorem xor_eq_of_toNat_mod_eq {a b : Byte} (h : a.toNat % 255 = b.toNat % 255) :
    a ^^^ b = 0x00#8 ∨ a ^^^ b = 0xFF#8 := by
  obtain equal | ⟨ha, hb⟩ | ⟨ha, hb⟩ :
      a.toNat = b.toNat ∨ (a.toNat = 0 ∧ b.toNat = 255) ∨ (a.toNat = 255 ∧ b.toNat = 0) := by omega
  · exact .inl (BitVec.xor_eq_zero_iff.2 (BitVec.eq_of_toNat_eq equal))
  · obtain rfl : a = 0x00#8 := BitVec.eq_of_toNat_eq ha
    obtain rfl : b = 0xFF#8 := BitVec.eq_of_toNat_eq hb
    exact .inr rfl
  · obtain rfl : a = 0xFF#8 := BitVec.eq_of_toNat_eq ha
    obtain rfl : b = 0x00#8 := BitVec.eq_of_toNat_eq hb
    exact .inr rfl

/-- A flip of one bit is no flip of none and no flip of all eight. -/
theorem toNat_flipBit_mod_ne (b : Byte) {k : Nat} (hk : k < 8) :
    (b ^^^ (1#8 <<< k)).toNat % 255 ≠ b.toNat % 255 := by
  intro same
  have single : ∀ j : Fin 8, ¬ (1#8 <<< j.val = 0x00#8 ∨ 1#8 <<< j.val = 0xFF#8) := by decide
  have flipped : b ^^^ (1#8 <<< k) ^^^ b = 1#8 <<< k := by
    rw [BitVec.xor_comm b, BitVec.xor_assoc, BitVec.xor_self, BitVec.xor_zero]
  exact single ⟨k, hk⟩ (flipped ▸ xor_eq_of_toNat_mod_eq same)

theorem fl16_flipBit_ne (l : List Byte) {i k : Nat} (inside : i < l.length) (hk : k < 8) :
    fl16 (l.set i (l[i] ^^^ (1#8 <<< k))) ≠ fl16 l := by
  intro same
  rw [← congrArg fl16 (List.set_getElem_self inside)] at same
  exact toNat_flipBit_mod_ne _ hk (toNat_mod_eq_of_fl16_set_eq inside same)

/-! ## The commands -/

/-- Where a checksum command ends: `STATUS` is zero, and all but the sums is as it was. -/
theorem frame_of_setSums_endCommand {t : State} {p : Byte × Byte} (h : t = (s.setSums p).endCommand none false) :
    EndsWell t ∧ KeepsMsg s t ∧ KeepsPkt s t ∧ KeepsOperands s t ∧ KeepsRxCsum s t ∧ KeepsHeader s t ∧
      KeepsPort s t := by
  subst h
  exact ⟨endsWell_endCommand _, ⟨fun _ => rfl, rfl⟩, ⟨fun _ => rfl, rfl⟩, ⟨rfl, rfl, rfl⟩, rfl, ⟨rfl, rfl, rfl, rfl⟩,
    rfl, rfl⟩

/-- One `CSBYTE` per byte folds the bytes into the sums. -/
theorem runCommands_csbytes (bytes : List Byte) (s : State) :
    ∃ t, runCommands (bytes.map .csbyte) s = .next t ∧ t.sums = flFold s.sums bytes := by
  induction bytes generalizing s with
  | nil => exact ⟨s, rfl, rfl⟩
  | cons b bytes ih =>
    rw [List.map_cons, runCommands_cons (exec_csbyte b s)]
    exact ih _

/-- The streamed checksum. -/
theorem runCommands_csclr_csbytes (bytes : List Byte) (s : State) :
    ∃ t, runCommands (.csclr :: bytes.map .csbyte) s = .next t ∧ t.sums = flSums bytes := by
  rw [runCommands_cons (exec_csclr s)]
  exact runCommands_csbytes bytes _

/-- Settles O23: the sums are zero, which clearing again leaves, and the bytes are folded from there. -/
theorem csclrStartsAChecksum : Obligations.CsclrStartsAChecksum := by
  refine ⟨rfl, fun s => ⟨?_, fun bytes => ?_⟩⟩
  · obtain ⟨well, msg, pkt, operands, rxCsum, header, port⟩ := frame_of_setSums_endCommand (s := s) rfl
    exact ⟨_, exec_csclr s, rfl, rfl, fl16_nil, well, msg, pkt, operands, rxCsum, header, port, rfl⟩
  · obtain ⟨t, run, sums⟩ := runCommands_csclr_csbytes bytes s
    exact ⟨t, run, congrArg csumOf sums⟩

/-- The word of `CSBYTE b` (R73). -/
theorem encode_csbyte (b : Byte) : encode (.csbyte b) = 0x00000002#32 ||| (b.zeroExtend 32 <<< 8) := by
  apply BitVec.eq_of_toNat_eq
  have fits := b.isLt
  rw [encode_csbyte_toNat, BitVec.toNat_or, BitVec.toNat_shiftLeft, BitVec.zeroExtend_eq_setWidth,
    BitVec.toNat_setWidth_of_le (by decide), Nat.mod_eq_of_lt (by rw [Nat.shiftLeft_eq]; omega)]
  rfl

/-- Settles O24: the command is the step on the sums, so its corner cases are those of the step. -/
theorem csbyteFeedsOneByte : Obligations.CsbyteFeedsOneByte := by
  intro s b
  refine ⟨encode_csbyte b, ⟨_, exec_csbyte b s, flStep_fst _ _, flStep_snd _ _, frame_of_setSums_endCommand rfl⟩, ?_,
    fun le => ⟨_, exec_csbyte _ s, flStep_zero_fst (p := s.sums) le⟩, fun bytes zeros h1 h2 => ?_⟩
  · rw [exec_csbyte, exec_csbyte, flStep_ff]
  · obtain ⟨t, run, sums⟩ := runCommands_csbytes bytes s
    rw [State.sums, State.sums, h1, h2, flFold_eq_zero_of_zero_or_ff zeros, Prod.mk.injEq] at sums
    exact ⟨t, run, sums⟩

/-- Settles O25: the sums are those of the message, and an empty message has no byte to fold. -/
theorem csmsgChecksumsTheMessage : Obligations.CsmsgChecksumsTheMessage := by
  refine ⟨rfl, fun s => ⟨_, exec_csmsg s, rfl, rfl, fun empty => ?_, frame_of_setSums_endCommand rfl⟩⟩
  have nil : s.message = [] := List.eq_nil_of_length_eq_zero ((State.message_length s).trans empty)
  exact (congrArg fl16 nil).trans fl16_nil

/-- Settles O26: the laws of the fold, of its steps modulo 255, and the two ways to checksum the message. -/
theorem fletcherLaws : Obligations.FletcherLaws := by
  refine ⟨fl16_nil, fun p l m => (flFold_append p l m).symm, fun s => ?_, fun l m => ?_,
    fun l _ _ inside hk => fl16_flipBit_ne l inside hk, fun l => ⟨csumOf_toNat _, flSums_fst l, flSums_snd l⟩⟩
  · obtain ⟨t, run, sums⟩ := runCommands_csclr_csbytes s.message s
    exact ⟨t, _, run, exec_csmsg s, congrArg Prod.fst sums, congrArg Prod.snd sums⟩
  · simp only [fl16, flSums, flFold_append, flFold_cons, flStep_ff]

end Sys2Proof.Machine
end

section
/-! PROOF. The framer's functions (spec/41_framer.md R81 to R90): the decoder one record at a time, the encoder segment
by segment and with indices, and that the decoder undoes the encoder. The encoder's four cases are, in order: the input
has ended, a zero is met, the run is full with this byte, the run goes on. -/

namespace Sys2Proof.Machine

variable {cap fuel : Nat} {run rest out : List Byte}

/-! ## The decoder, one record at a time (R83) -/

@[simp] theorem cobsDec_nil (cap : Nat) : cobsDec [] cap = .ok [] := rfl

/-- Output already made is only ever appended to, and its bytes are room already used. -/
theorem cobsDecFrom_append (pre : List Byte) (cap fuel : Nat) (rest out : List Byte) :
    cobsDecFrom (pre.length + cap) fuel rest (pre ++ out) = (cobsDecFrom cap fuel rest out).map (pre ++ ·) := by
  induction fuel generalizing rest out with
  | zero => rfl
  | succ fuel ih =>
    cases rest with
    | nil => rfl
    | cons code tail =>
      simp only [cobsDecFrom, List.length_append, Nat.add_assoc, gt_iff_lt, Nat.add_lt_add_iff_left, List.append_assoc,
        ih, apply_ite (Except.map _)]
      rfl

/-- What is left of the input decodes into the room left, whatever the fuel. -/
theorem cobsDecFrom_eq_map_cobsDec (enough : rest.length ≤ fuel) (fits : out.length ≤ cap) :
    cobsDecFrom cap fuel rest out = (cobsDec rest (cap - out.length)).map (out ++ ·) := by
  rw [cobsDec, ← cobsDecFrom_append, List.append_nil, Nat.add_sub_cancel' fits]
  exact cobsDecFrom_fuel cap _ _ rest out enough (Nat.le_refl _)

theorem runRecord_eq_cons {code : Byte} (h : run.length + 1 = code.toNat) : runRecord run = code :: run := by
  rw [runRecord, h, BitVec.ofNat_toNat, BitVec.setWidth_eq]

theorem runRecord_of_full (full : run.length = 254) : runRecord run = 0xFF#8 :: run :=
  runRecord_eq_cons (congrArg (· + 1) full)

/-- A record of at most 254 literals that lie in the input passes the first two checks; then come the room for the
literals and the room for the zero. -/
theorem cobsDec_runRecord_append (cap : Nat) (short : run.length ≤ 254) (rest : List Byte) :
    cobsDec (runRecord run ++ rest) cap =
      if cap < run.length then .error .noSpace
      else if run.length ≠ 254 ∧ rest ≠ [] then
        if cap < run.length + 1 then .error .noSpace
        else (cobsDec rest (cap - (run.length + 1))).map (run ++ 0x00#8 :: ·)
      else (cobsDec rest (cap - run.length)).map (run ++ ·) := by
  have code : (BitVec.ofNat 8 (run.length + 1)).toNat = run.length + 1 := Nat.mod_eq_of_lt (by omega)
  have inside : ¬ (run ++ rest).length + 1 < run.length + 1 := by simp
  have full : run.length + 1 ≠ codeFull ↔ run.length ≠ 254 := by simp [codeFull]
  have enough : rest.length ≤ (run ++ rest).length := by simp
  simp only [runRecord, cobsDec, List.cons_append, List.length_cons, cobsDecFrom, code, inside, full, gt_iff_lt,
    Nat.succ_ne_zero, if_false, Nat.add_sub_cancel, List.drop_left, List.take_left, List.length_nil, Nat.zero_add,
    List.nil_append]
  split_ifs with noRoom more noRoomForZero
  · rfl
  · rfl
  · rw [cobsDecFrom_eq_map_cobsDec enough (by simpa using noRoomForZero)]
    simp [cobsDec, termByte]
  · exact cobsDecFrom_eq_map_cobsDec enough (by simpa using noRoom)

/-- The record's literals and no zero: the code is 255, or no input follows. -/
theorem cobsDec_runRecord_append_plain (short : run.length ≤ 254) (room : run.length ≤ cap)
    (last : run.length = 254 ∨ rest = []) :
    cobsDec (runRecord run ++ rest) cap = (cobsDec rest (cap - run.length)).map (run ++ ·) := by
  rw [cobsDec_runRecord_append cap short, if_neg (Nat.not_lt.2 room), if_neg]
  exact fun ⟨notFull, more⟩ => last.elim notFull more

theorem cobsDec_runRecord (short : run.length ≤ 254) (room : run.length ≤ cap) :
    cobsDec (runRecord run) cap = .ok run := by
  rw [← List.append_nil (runRecord run), cobsDec_runRecord_append_plain short room (.inr rfl), cobsDec_nil, Except.map,
    List.append_nil]

/-- The record's literals and a zero: the code is not 255, and input follows. -/
theorem cobsDec_runRecord_append_zero (short : run.length < 254) (more : rest ≠ []) (room : run.length + 1 ≤ cap) :
    cobsDec (runRecord run ++ rest) cap = (cobsDec rest (cap - (run.length + 1))).map (run ++ 0x00#8 :: ·) := by
  rw [cobsDec_runRecord_append cap short.le, if_neg (by omega), if_pos ⟨short.ne, more⟩, if_neg (by omega)]

theorem cobsDec_trunc {code : Byte} {tail : List Byte} (beyond : tail.length + 1 < code.toNat) (cap : Nat) :
    cobsDec (code :: tail) cap = .error .trunc := by
  have : code.toNat ≠ 0 := by omega
  simp [cobsDec, cobsDecFrom, this, beyond]

/-- Settles O33: the four checks of a record in their order, and what each leaves to decode. -/
theorem decoderTakesOneRecordAtATime : Obligations.DecoderTakesOneRecordAtATime := by
  refine fun cap => ⟨cobsDec_nil cap, fun code tail => ⟨fun zero => by subst zero; rfl, fun _ beyond =>
    cobsDec_trunc beyond cap, ?_⟩⟩
  rintro lits rest rfl code_eq
  have short : lits.length ≤ 254 := by omega
  rw [← List.cons_append, ← runRecord_eq_cons code_eq]
  refine ⟨fun noRoom => ?_, fun room => ⟨fun last => ?_, fun notFull more noRoom => ?_,
    fun notFull more roomForZero => ?_⟩⟩
  · rw [cobsDec_runRecord_append cap short, if_pos noRoom]
  · exact cobsDec_runRecord_append_plain short room (last.imp_left fun full => by omega)
  · rw [cobsDec_runRecord_append cap short, if_neg (Nat.not_lt.2 room), if_pos ⟨by omega, more⟩, if_pos noRoom]
  · exact cobsDec_runRecord_append_zero (by omega) more roomForZero

/-- Settles O34: the room is checked before each byte put out. -/
theorem decodedBytesFitTheRoom : Obligations.DecodedBytesFitTheRoom := fun _ _ _ => cobsDec_length_le

/-! ## The decoder undoes the encoder (R87) -/

theorem cobsEncFrom_ne_nil (run rest : List Byte) : cobsEncFrom run rest ≠ [] := by
  fun_induction cobsEncFrom run rest with
  | case1 run => exact List.cons_ne_nil _ _
  | case2 run rest => exact List.cons_ne_nil _ _
  | case3 run b rest => exact List.cons_ne_nil _ _
  | case4 run b rest _ _ ih => exact ih

/-- The zero that closes a run is the one the decoder puts back, and a run closed because it is full has code 255. -/
theorem cobsDec_cobsEncFrom (short : run.length < 254) (room : run.length + rest.length ≤ cap) :
    cobsDec (cobsEncFrom run rest) cap = .ok (run ++ rest) := by
  fun_induction cobsEncFrom run rest generalizing cap with
  | case1 run =>
    rw [cobsDec_runRecord short.le room, List.append_nil]
  | case2 run rest ih =>
    rw [List.length_cons] at room
    rw [cobsDec_runRecord_append_zero short (cobsEncFrom_ne_nil _ _) (by omega), ih (by simp) (by simp; omega)]
    rfl
  | case3 run b rest _ full ih =>
    rw [List.length_cons] at room
    have length : (run ++ [b]).length = 254 := List.length_append.trans full
    rw [List.append_cons run b rest, cobsDec_runRecord_append_plain length.le (by simp; omega) (.inl length),
      ih (by simp) (by simp; omega)]
    rfl
  | case4 run b rest _ notFull ih =>
    have length : (run ++ [b]).length = run.length + 1 := List.length_append
    rw [runMax] at notFull
    rw [List.length_cons] at room
    rw [List.append_cons run b rest]
    exact ih (by omega) (by omega)

theorem cobsDec_cobsEnc {m : List Byte} (room : m.length ≤ cap) : cobsDec (cobsEnc m) cap = .ok m :=
  cobsDec_cobsEncFrom (by simp) (by simpa using room)

/-! ## The encoder with indices (R81) -/

/-- The scan with `done` put out and the run `run` open: a zero byte holds the reserved position between the two. -/
def openRun (done run : List Byte) : IndexScan := (done ++ 0x00#8 :: run, done.length, run.length + 1)

/-- The output of a scan once the open run's code is written. -/
def closeScan (t : IndexScan) : List Byte := t.1.set t.2.1 (BitVec.ofNat 8 t.2.2)

theorem cobsEncIndexed_eq_closeScan (m : List Byte) :
    cobsEncIndexed m = closeScan (m.foldl indexStep (openRun [] [])) := rfl

theorem closeScan_openRun (done run : List Byte) : closeScan (openRun done run) = done ++ runRecord run := by
  simp [closeScan, openRun, runRecord]

theorem indexStep_zero (done run : List Byte) :
    indexStep (openRun done run) termByte = openRun (done ++ runRecord run) [] := by
  simp [indexStep, openRun, runRecord]

theorem indexStep_full {b : Byte} (hb : b ≠ termByte) (full : run.length + 1 = runMax) (done : List Byte) :
    indexStep (openRun done run) b = openRun (done ++ runRecord (run ++ [b])) [] := by
  have code : run.length + 1 + 1 = codeFull := congrArg (· + 1) full
  simp [indexStep, openRun, runRecord, hb, ← code, Nat.add_assoc]

theorem indexStep_more {b : Byte} (hb : b ≠ termByte) (notFull : run.length + 1 ≠ runMax) (done : List Byte) :
    indexStep (openRun done run) b = openRun done (run ++ [b]) := by
  have code : run.length + 1 + 1 ≠ codeFull := fun h => notFull (Nat.succ.inj h)
  simp [indexStep, openRun, hb, code]

theorem closeScan_foldl_indexStep (done run rest : List Byte) :
    closeScan (rest.foldl indexStep (openRun done run)) = done ++ cobsEncFrom run rest := by
  fun_induction cobsEncFrom run rest generalizing done with
  | case1 run => exact closeScan_openRun done run
  | case2 run rest ih => rw [List.foldl_cons, indexStep_zero, ih, List.append_assoc]
  | case3 run b rest hb full ih => rw [List.foldl_cons, indexStep_full hb full, ih, List.append_assoc]
  | case4 run b rest hb notFull ih => rw [List.foldl_cons, indexStep_more hb notFull, ih]

/-- Settles O28: both forms start with nothing put out and an empty open run. -/
theorem encoderIndexFormAgrees : Obligations.EncoderIndexFormAgrees := fun m =>
  (cobsEncIndexed_eq_closeScan m).trans (closeScan_foldl_indexStep [] [] m)

/-! ## No zero in the encoding (R85) -/

/-- Settles O29: no byte of the encoding is zero, and the terminator follows it. -/
theorem encodedBytesAreNonZero : Obligations.EncodedBytesAreNonZero := by
  refine fun m => ⟨ne_zero_of_mem_cobsEnc m, ?_, List.getLast?_concat⟩
  have none : (cobsEnc m).count 0x00#8 = 0 := List.count_eq_zero.2 fun zero => ne_zero_of_mem_cobsEnc m _ zero rfl
  rw [packetOf, List.count_append, none]
  rfl

/-! ## The encoding, segment by segment (R86) -/

/-- The records of one zero-free segment: full ones, then one with what is left. -/
def segmentRecords (seg : List Byte) : List Byte :=
  ((List.range (seg.length / 254)).flatMap fun k => 0xFF#8 :: (seg.drop (254 * k)).take 254) ++
    BitVec.ofNat 8 (seg.length % 254 + 1) :: seg.drop (254 * (seg.length / 254))

theorem segmentRecords_of_short (short : run.length < 254) : segmentRecords run = runRecord run := by
  simp [segmentRecords, runRecord, Nat.div_eq_of_lt short, Nat.mod_eq_of_lt short]

theorem segmentRecords_append_of_full (full : run.length = 254) (seg : List Byte) :
    segmentRecords (run ++ seg) = runRecord run ++ segmentRecords seg := by
  have length : (run ++ seg).length = seg.length + 254 := by rw [List.length_append, full, Nat.add_comm]
  have drop (k : Nat) : (run ++ seg).drop (254 * (k + 1)) = seg.drop (254 * k) := by
    rw [Nat.mul_succ, Nat.add_comm, ← full, List.drop_length_add_append]
  simp only [segmentRecords, length, Nat.add_div_right seg.length (by decide : 0 < 254), Nat.add_mod_right, drop,
    List.range_succ_eq_map, List.flatMap_cons, List.flatMap_map, Nat.succ_eq_add_one, runRecord_of_full full,
    Nat.mul_zero, List.drop_zero, List.take_left' full, List.append_assoc]

theorem segmentRecords_length (seg : List Byte) : (segmentRecords seg).length = seg.length + 1 + seg.length / 254 := by
  have records : ∀ k ∈ List.range (seg.length / 254), (0xFF#8 :: (seg.drop (254 * k)).take 254).length = 255 := by
    intro k hk
    have := List.mem_range.1 hk
    simp only [List.length_cons, List.length_take, List.length_drop]
    omega
  rw [segmentRecords, List.length_append, List.length_flatMap, List.map_congr_left records, List.map_const',
    List.sum_replicate, List.length_range, smul_eq_mul, List.length_cons, List.length_drop]
  omega

/-- Bytes other than the separator go to the front of the first segment. -/
theorem splitOn_append_of_not_mem (zeroFree : 0x00#8 ∉ run) (rest : List Byte) :
    (run ++ rest).splitOn 0x00#8 = (rest.splitOn 0x00#8).modifyHead (run ++ ·) := by
  induction run with
  | nil => exact (congrFun List.modifyHead_id _).symm
  | cons b run ih =>
    obtain ⟨hb, zeroFree⟩ := List.ne_and_not_mem_of_not_mem_cons zeroFree
    simp [List.splitOn_cons_eq_if_modifyHead, Ne.symm hb, ih zeroFree, Function.comp_def]

theorem zero_not_mem_concat {b : Byte} (zeroFree : 0x00#8 ∉ run) (hb : b ≠ termByte) : 0x00#8 ∉ run ++ [b] := by
  rw [termByte] at hb
  simp [zeroFree, hb.symm]

theorem cobsEncFrom_eq_flatMap_segmentRecords (short : run.length < 254) (zeroFree : 0x00#8 ∉ run) (rest : List Byte) :
    cobsEncFrom run rest = ((run ++ rest).splitOn 0x00#8).flatMap segmentRecords := by
  fun_induction cobsEncFrom run rest with
  | case1 run =>
    rw [List.append_nil, List.splitOn_eq_singleton zeroFree, List.flatMap_singleton, segmentRecords_of_short short]
  | case2 run rest ih =>
    rw [termByte, List.splitOn_append_cons_self_of_not_mem zeroFree, List.flatMap_cons, segmentRecords_of_short short,
      ih (by simp) (by simp), List.nil_append]
  | case3 run b rest hb full ih =>
    have zeroFree := zero_not_mem_concat zeroFree hb
    obtain ⟨seg, segs, split⟩ := List.exists_cons_of_ne_nil (List.splitOn_ne_nil 0x00#8 rest)
    rw [List.append_cons run b rest, splitOn_append_of_not_mem zeroFree, ih (by simp) (by simp), List.nil_append, split,
      List.modifyHead_cons, List.flatMap_cons, List.flatMap_cons,
      segmentRecords_append_of_full (List.length_append.trans full), List.append_assoc]
  | case4 run b rest hb notFull ih =>
    have zeroFree := zero_not_mem_concat zeroFree hb
    have length : (run ++ [b]).length = run.length + 1 := List.length_append
    rw [runMax] at notFull
    rw [List.append_cons run b rest]
    exact ih (by omega) zeroFree

theorem cobsEnc_eq_flatMap_segmentRecords (m : List Byte) :
    cobsEnc m = (m.splitOn 0x00#8).flatMap segmentRecords :=
  cobsEncFrom_eq_flatMap_segmentRecords (by simp) (by simp) m

/-- Each zero ends one segment, and one more segment is open at the end. -/
theorem sum_length_splitOn (m : List Byte) :
    ((m.splitOn 0x00#8).map List.length).sum + (m.splitOn 0x00#8).length = m.length + 1 := by
  induction m with
  | nil => simp [List.splitOn_nil]
  | cons b m ih =>
    obtain ⟨seg, segs, split⟩ := List.exists_cons_of_ne_nil (List.splitOn_ne_nil 0x00#8 m)
    rw [split] at ih
    simp only [List.map_cons, List.sum_cons, List.length_cons] at ih
    by_cases hb : b = 0x00#8
    · simp [List.splitOn_cons_eq_if_modifyHead, hb, split]
      omega
    · simp [List.splitOn_cons_eq_if_modifyHead, hb, split]
      omega

theorem cobsEnc_length (m : List Byte) :
    (cobsEnc m).length = m.length + 1 + ((m.splitOn 0x00#8).map fun seg => seg.length / 254).sum := by
  rw [cobsEnc_eq_flatMap_segmentRecords, List.length_flatMap]
  simp only [segmentRecords_length, List.sum_map_add, List.map_const', List.sum_replicate, smul_eq_mul, mul_one,
    ← sum_length_splitOn m]

/-- Each part is rounded down on its own. -/
theorem sum_div_le (lens : List Nat) : (lens.map (· / 254)).sum ≤ lens.sum / 254 := by
  induction lens with
  | nil => simp
  | cons n lens ih =>
    simp only [List.map_cons, List.sum_cons]
    omega

theorem cobsEnc_length_le (m : List Byte) : (cobsEnc m).length ≤ m.length + 1 + m.length / 254 := by
  have nonempty := List.length_pos_iff.2 (List.splitOn_ne_nil 0x00#8 m)
  have total := sum_length_splitOn m
  have bySegments := sum_div_le ((m.splitOn 0x00#8).map List.length)
  have whole : ((m.splitOn 0x00#8).map List.length).sum / 254 ≤ m.length / 254 := Nat.div_le_div_right (by omega)
  rw [List.map_map] at bySegments
  rw [cobsEnc_length]
  exact Nat.add_le_add_left (bySegments.trans whole) _

/-- Settles O30: the length is counted segment by segment, and a sequence with no zero is one segment. -/
theorem encodedLength : Obligations.EncodedLength := by
  refine fun m => ⟨cobsEnc_eq_flatMap_segmentRecords m, cobsEnc_length m, ?_, cobsEnc_length_le m,
    fun zeroFree => ?_, ?_⟩
  · rw [cobsEnc_length]
    exact Nat.le_add_right _ _
  · rw [cobsEnc_length, List.splitOn_eq_singleton zeroFree, List.map_singleton, List.sum_singleton]
  · rw [packetOf, List.length_append, List.length_singleton]

/-! ## Frames the encoder does not make (R90) -/

theorem cobsEnc_of_full (zeroFree : 0x00#8 ∉ run) (full : run.length = 254) :
    cobsEnc run = runRecord run ++ [0x01#8] := by
  have records := segmentRecords_append_of_full full []
  rw [List.append_nil] at records
  rw [cobsEnc_eq_flatMap_segmentRecords, List.splitOn_eq_singleton zeroFree, List.flatMap_singleton, records]
  rfl

/-- Settles O36: a record that ends the input adds no zero whatever its code, and the literals are not looked at. -/
theorem decoderIsNotInjective : Obligations.DecoderIsNotInjective := by
  have empty (cap : Nat) : cobsDec [0x01#8] cap = .ok [] := cobsDec_runRecord (run := []) (by simp) (by simp)
  refine ⟨fun d cap full room => ?_, fun cap => ⟨cobsDec_nil cap, empty cap, rfl⟩, fun cap room =>
    ⟨cobsDec_runRecord (run := [0x00#8]) (by simp) room, cobsDec_cobsEnc (m := [0x00#8]) room, rfl⟩⟩
  have room : d.length ≤ cap := full.le.trans room
  rw [← runRecord_of_full full]
  refine ⟨cobsDec_runRecord full.le room, ?_, fun zeroFree => cobsEnc_of_full zeroFree full⟩
  rw [cobsDec_runRecord_append_plain full.le room (.inl full), empty, Except.map, List.append_nil]

end Sys2Proof.Machine
end

section
/-! PROOF. The framer commands `ENCODE`, `TERM`, `STRIP`, `DECODE` (spec/41_framer.md R82 to R89), by the functions they
run and the state each answers. -/

namespace Sys2Proof.Machine

variable {s t : State} {i : Instr}

/-- The three commands whose destination is `PKT` leave all the rest but `STATUS`. -/
theorem frame_of_pktCommand (pktCommand : i = .encode ∨ i = .term ∨ i = .strip) (h : exec i s = .next t) :
    KeepsMsg s t ∧ KeepsOperands s t ∧ KeepsSums s t ∧ KeepsRxCsum s t ∧ KeepsHeader s t ∧ KeepsPort s t := by
  obtain ⟨msg, -, -, operands, sums, rxCsum, header, port⟩ := commandsWriteOnlyTheirColumns i s t h
  rcases pktCommand with rfl | rfl | rfl <;>
    exact ⟨msg nofun nofun nofun, operands, sums nofun nofun nofun nofun nofun, rxCsum nofun, header nofun, port⟩

theorem frame_of_decode (h : exec .decode s = .next t) :
    KeepsPkt s t ∧ KeepsOperands s t ∧ KeepsSums s t ∧ KeepsRxCsum s t ∧ KeepsHeader s t ∧ KeepsPort s t := by
  obtain ⟨-, pkt, -, operands, sums, rxCsum, header, port⟩ := commandsWriteOnlyTheirColumns .decode s t h
  exact ⟨pkt nofun nofun nofun, operands, sums nofun nofun nofun nofun nofun, rxCsum nofun, header nofun, port⟩

theorem Config.sized_iff {c : Config} : c.sized = true ↔ c.msgMax + c.msgMax / 254 + 2 ≤ c.pktMax := decide_eq_true_iff

/-- R6: a sized packet buffer holds the encoding of any message and its terminator. -/
theorem cobsEnc_message_lt_of_sized (sized : s.cfg.sized = true) (inside : s.msgLen ≤ s.cfg.msgMax) :
    (cobsEnc s.message).length < s.cfg.pktMax := by
  have bound := cobsEnc_length_le s.message
  rw [State.message_length] at bound
  have := Config.sized_iff.1 sized
  omega

theorem cobsEnc_replicate_zero (n : Nat) : cobsEnc (List.replicate n 0x00#8) = List.replicate (n + 1) 0x01#8 := by
  induction n with
  | zero => rfl
  | succ n ih =>
    rw [List.replicate_succ, cobsEnc, cobsEncFrom_zero, ← cobsEnc, ih]
    rfl

/-- Writing the same bytes again changes nothing. -/
theorem Buffer.read_writeAll_writeAll (b : Buffer) (i : Nat) (bytes : List Byte) (j : Nat) :
    ((b.writeAll i bytes).writeAll i bytes).read j = (b.writeAll i bytes).read j := by
  simp only [Buffer.read_writeAll]
  split <;> rfl

/-- Settles O32: the encoding is written from index 0, and a second run finds the same message and writes it again. -/
theorem encodeFramesTheMessage : Obligations.EncodeFramesTheMessage := by
  refine ⟨rfl, rfl, cobsEnc_replicate_zero, ?_, fun s noRoom => ?_, fun s => cobsEnc_message_lt_of_sized⟩
  · rintro s _ rfl fits
    have encoded := exec_encode_fits fits
    obtain ⟨msg, operands, sums, rxCsum, header, port⟩ := frame_of_pktCommand (.inl rfl) encoded
    exact ⟨_, encoded, endsWell_endCommand _, rfl, fun i => Buffer.read_writeAll_in,
      fun i above => Buffer.read_writeAll_out (.inr (by omega)), msg, operands, sums, rxCsum, header, port,
      _, exec_encode_fits fits, rfl, Buffer.read_writeAll_writeAll _ _ _, rfl⟩
  · exact ⟨_, exec_encode_noSpace noRoom, endsIn_endCommand _ _, rfl, Buffer.read_unspecified _,
      frame_of_pktCommand (.inl rfl) (exec_encode_noSpace noRoom)⟩

/-- Settles O37: the byte is written at the end of the packet, and the encoder leaves a byte of room for it. -/
theorem termAppendsTheTerminator : Obligations.TermAppendsTheTerminator := by
  refine ⟨rfl, fun s room => ?_, fun s full => ?_, fun s sized inside => ?_⟩
  · refine ⟨_, exec_term_fits room, endsWell_endCommand _, (Buffer.read_write ..).trans (if_pos rfl), rfl,
      fun i other => (Buffer.read_write ..).trans (if_neg other.symm), ?_⟩
    exact frame_of_pktCommand (.inr (.inl rfl)) (exec_term_fits room)
  · exact ⟨_, exec_term_noSpace full, endsIn_endCommand _ _, keepsAllButStatus_endCommand _ _ _, rfl, rfl⟩
  · obtain ⟨t, run, well, -⟩ := encodeThenTermMakesAPacket s (cobsEnc_message_lt_of_sized sized inside)
    exact ⟨t, run, well⟩

/-- Settles O38: the length alone goes down, so after `TERM` the packet is what it was before. -/
theorem stripRemovesTheTerminator : Obligations.StripRemovesTheTerminator := by
  refine ⟨rfl, fun s pos zero => ?_, fun s noTerm => ?_, fun s room => ?_⟩
  · exact ⟨_, exec_strip_found pos zero, endsWell_endCommand _, rfl, fun _ => rfl,
      frame_of_pktCommand (.inr (.inr rfl)) (exec_strip_found pos zero)⟩
  · exact ⟨_, exec_strip_noTerm noTerm, endsIn_endCommand _ _, keepsAllButStatus_endCommand _ _ _, rfl, rfl⟩
  · obtain ⟨t, termed, -, tPacket, -⟩ := exec_term_packet room
    obtain ⟨u, stripped, -, uPacket, -⟩ := exec_strip_packet tPacket
    have uLen : u.pktLen = s.pktLen := by simpa using congrArg List.length uPacket
    refine ⟨u, by rw [runCommands_cons termed, runCommands_cons stripped]; rfl, uLen, fun i hi => ?_⟩
    rw [← State.packet_length] at hi
    rw [State.pkt_read uPacket hi, State.pkt_read rfl hi]

/-- The three checks of R83 are the only ways to fail. -/
theorem cobsDecFrom_error {cap fuel : Nat} {rest out : List Byte} {e : CmdError}
    (h : cobsDecFrom cap fuel rest out = .error e) : e = .zeroCode ∨ e = .trunc ∨ e = .noSpace := by
  fun_induction cobsDecFrom cap fuel rest out with
  | case1 => cases h
  | case2 => cases h
  | case3 => cases h; exact .inl rfl
  | case4 => cases h; exact .inr (.inl rfl)
  | case5 => cases h; exact .inr (.inr rfl)
  | case6 => cases h; exact .inr (.inr rfl)
  | case7 _ _ _ _ _ _ _ _ _ ih => exact ih h
  | case8 _ _ _ _ _ _ _ _ ih => exact ih h

theorem State.packet_eq_nil (h : s.pktLen = 0) : s.packet = [] :=
  List.eq_nil_of_length_eq_zero ((State.packet_length s).trans h)

/-- Settles O35: the decoded bytes are written from index 0; an empty frame decodes, so a failure leaves `EMPTY` 0. -/
theorem decodeUnframesThePacket : Obligations.DecodeUnframesThePacket := by
  refine ⟨rfl, fun s d decodes => ?_, fun s e fails => ⟨cobsDecFrom_error fails, ?_⟩, fun s empty => ?_⟩
  · refine ⟨_, exec_decode_ok decodes, State.endCommand_ecode .., State.endCommand_empty ..,
      State.endCommand_statusReserved .., rfl, fun i => Buffer.read_writeAll_in,
      fun i above => Buffer.read_writeAll_out (.inr (by omega)), frame_of_decode (exec_decode_ok decodes)⟩
  · have nonempty : s.pktLen ≠ 0 := fun empty => by
      rw [State.packet_eq_nil empty, cobsDec_nil] at fails
      cases fails
    have decoded := exec_decode_error fails
    rw [decide_eq_false nonempty] at decoded
    exact ⟨_, decoded, endsIn_endCommand _ _, rfl, Buffer.read_unspecified _, frame_of_decode decoded⟩
  · have decodes : cobsDec s.packet s.cfg.msgMax = .ok [] := by rw [State.packet_eq_nil empty, cobsDec_nil]
    exact ⟨_, exec_decode_ok decodes, State.endCommand_ecode .., by simp [empty], rfl, fun _ => rfl⟩

/-- A valid byte of `MSG` is the message's byte at that index. -/
theorem State.msg_read {s : State} {m : List Byte} (h : s.message = m) {i : Nat} (hi : i < m.length) :
    s.msg.read i = m[i] := by
  subst h
  simp only [State.message, Buffer.slice_getElem, Nat.zero_add]

/-- Settles O31: the packet `ENCODE` leaves is the encoding, which decodes to the message it was made of. -/
theorem framingRoundTrip : Obligations.FramingRoundTrip := by
  refine ⟨fun m cap room => cobsDec_cobsEnc room, fun s inside fits => ?_⟩
  obtain ⟨t, encoded, -, tPacket, tLen, -, -, ⟨cfg, -, -⟩, -⟩ := exec_encode_packet fits
  have decodes : cobsDec t.packet t.cfg.msgMax = .ok s.message := by
    rw [tPacket, cfg]
    exact cobsDec_cobsEnc ((State.message_length s).le.trans inside)
  have pos : 0 < t.pktLen := tLen ▸ List.length_pos_iff.2 (cobsEncFrom_ne_nil _ _)
  obtain ⟨u, decoded, well, uMessage, uLen, -⟩ := exec_decode_message decodes pos
  refine ⟨u, by rw [runCommands_cons encoded, runCommands_cons decoded]; rfl, well, by simpa using uLen, fun i hi => ?_⟩
  rw [← State.message_length] at hi
  rw [State.msg_read uMessage hi, State.msg_read rfl hi]

end Sys2Proof.Machine
end

section
/-! PROOF. The codec commands `HDRPUT`, `FINISH`, `HDRGET`, `TRLGET` (spec/42_codec.md R100 to R107): packing and
unpacking a header, the bytes of its fields, and the state in which each command ends. -/

namespace Sys2Proof.Machine

variable {b : Buffer} {l : List Byte}

/-! ## Packing and unpacking (R100, R101) -/

theorem leBytes_one (v : Byte) : leBytes 1 v = [v] := by simp [leBytes]

theorem leBytes_unLE_of_length {n : Nat} (len : l.length = n) : leBytes n (unLE (8 * n) l) = l := by
  subst len
  exact leBytes_unLE l rfl

/-- The header's four fields stand in the packed bytes at the offsets that unpacking takes them from. -/
theorem unpackHdr_packHdr (h : Header) : unpackHdr (packHdr h) = h := by
  have cmd : unLE 8 [h.cmd] = h.cmd := by rw [← leBytes_one, unLE_leBytes 1 h.cmd (by decide)]
  simp [unpackHdr, packHdr, List.drop_append, List.take_of_length_le, List.drop_eq_nil_of_le, unLE_leBytes, cmd]

/-- The four fields' bytes, one after another, are all of a header. -/
theorem append_headerFields (len : l.length = 17) :
    l.take 4 ++ (l.drop 4).take 4 ++ (l.drop 8).take 8 ++ (l.drop 16).take 1 = l := by
  have cut (n m : Nat) : (l.drop n).take m ++ l.drop (n + m) = l.drop n := by
    rw [← List.drop_drop, List.take_append_drop]
  rw [List.take_of_length_le (l := l.drop 16) (by simp [len]), List.append_assoc, List.append_assoc, cut 8 8, cut 4 4,
    List.take_append_drop]

theorem packHdr_unpackHdr (len : l.length = 17) : packHdr (unpackHdr l) = l := by
  rw [packHdr, ← leBytes_one]
  show leBytes 4 (unLE (8 * 4) _) ++ leBytes 4 (unLE (8 * 4) _) ++ leBytes 8 (unLE (8 * 8) _) ++
    leBytes 1 (unLE (8 * 1) _) = l
  rw [leBytes_unLE_of_length, leBytes_unLE_of_length, leBytes_unLE_of_length, leBytes_unLE_of_length,
    append_headerFields len] <;> simp [len]

/-- Each byte of a field is the header's byte at the field's offset (R56). -/
theorem unpackHdr_bytes (len : l.length = 17) :
    (∀ k (hk : k < 4), (unpackHdr l).magic.extractLsb' (8 * k) 8 = l[k]) ∧
    (∀ k (hk : k < 4), (unpackHdr l).version.extractLsb' (8 * k) 8 = l[4 + k]) ∧
    (∀ k (hk : k < 8), (unpackHdr l).seq.extractLsb' (8 * k) 8 = l[8 + k]) ∧
    (unpackHdr l).cmd = l[16] := by
  refine ⟨fun k hk => (unLE_byte (by simp [len]) (by simp [len, hk])).trans (by simp),
    fun k hk => (unLE_byte (by simp [len]) (by simp [len, hk])).trans (by simp),
    fun k hk => (unLE_byte (by simp [len]) (by simp [len, hk])).trans (by simp), ?_⟩
  have byte := unLE_byte (w := 8) (l := (l.drop 16).take 1) (by simp [len]) (k := 0) (by simp [len])
  simpa [unpackHdr] using byte

/-- Settles O41: little-endian bytes and the number they denote determine each other, field by field. -/
theorem headerPackingIsABijection : Obligations.HeaderPackingIsABijection := by
  refine ⟨unpackHdr_packHdr, fun l len => ⟨packHdr_unpackHdr len, unLE_toNat (by simp [len]),
    unLE_toNat (by simp [len]), unLE_toNat (by simp [len]), ?_⟩⟩
  obtain ⟨-, -, -, cmd⟩ := unpackHdr_bytes len
  rw [cmd, List.getElem?_eq_getElem]

/-! ## The commands (R102 to R107) -/

/-- The bytes of the header that a buffer starts with. -/
theorem Buffer.header_bytes {h : Header} (starts : unpackHdr (b.slice 0 17) = h) :
    (∀ k, k < 4 → h.magic.extractLsb' (8 * k) 8 = b.read k) ∧
    (∀ k, k < 4 → h.version.extractLsb' (8 * k) 8 = b.read (4 + k)) ∧
    (∀ k, k < 8 → h.seq.extractLsb' (8 * k) 8 = b.read (8 + k)) ∧
    h.cmd = b.read 16 := by
  subst starts
  simpa only [Buffer.slice_getElem, Nat.zero_add] using unpackHdr_bytes (Buffer.slice_length b 0 17)

/-- `HDRPUT` leaves the header in front of `MSG`, and all behind it. -/
theorem exec_hdrput_header (s : State) :
    ∃ t, exec .hdrput s = .next t ∧ EndsWell t ∧ t.msgLen = 17 ∧ t.msg.slice 0 17 = packHdr s.outHeader ∧
      (∀ i, 17 ≤ i → t.msg.read i = s.msg.read i) ∧ KeepsOperands s t ∧ KeepsPort s t := by
  have len := packHdr_length s.outHeader
  have written := Buffer.slice_writeAll_zero s.msg (packHdr s.outHeader)
  rw [len] at written
  obtain ⟨-, -, -, operands, -, -, -, port⟩ := commandsWriteOnlyTheirColumns .hdrput s _ (exec_hdrput s)
  exact ⟨_, exec_hdrput s, endsWell_endCommand _, rfl, written,
    fun i above => Buffer.read_writeAll_out (.inr (by rw [len]; omega)), operands, port⟩

/-- Settles O42: unpacking what is written gives the header back, so its bytes are those of the fields. -/
theorem hdrputWritesTheHeader : Obligations.HdrputWritesTheHeader := by
  refine ⟨rfl, fun s => ?_⟩
  obtain ⟨t, put, well, len, written, above, -⟩ := exec_hdrput_header s
  obtain ⟨magic, version, seq, cmd⟩ := Buffer.header_bytes (by rw [written, unpackHdr_packHdr])
  obtain ⟨-, pkt, -, operands, sums, rxCsum, header, port⟩ := commandsWriteOnlyTheirColumns .hdrput s t put
  exact ⟨t, put, well, len, fun k hk => (magic k hk).symm, fun k hk => (version k hk).symm,
    fun k hk => (seq k hk).symm, cmd.symm, above, pkt nofun nofun nofun, operands,
    sums nofun nofun nofun nofun nofun, rxCsum nofun, header nofun, port⟩

/-- Settles O43: the two bytes of the checksum are written at the end of the message, if it has room for them. -/
theorem finishAppendsTheChecksum : Obligations.FinishAppendsTheChecksum := by
  refine ⟨rfl, fun s room => ?_, fun s noRoom => ?_⟩
  · have finished := exec_finish_fits (s := s) room
    have first (lo hi : Byte) : (s.msg.writeAll s.msgLen [lo, hi]).read s.msgLen = lo := by simp [Buffer.read_writeAll]
    have second (lo hi : Byte) : (s.msg.writeAll s.msgLen [lo, hi]).read (s.msgLen + 1) = hi := by
      simp [Buffer.read_writeAll]
    have empty (h : s.msgLen = 0) : flSums s.message = (0x00#8, 0x00#8) :=
      congrArg flSums (List.eq_nil_of_length_eq_zero ((State.message_length s).trans h))
    obtain ⟨-, pkt, -, operands, -, rxCsum, header, port⟩ := commandsWriteOnlyTheirColumns .finish s _ finished
    exact ⟨_, finished, endsWell_endCommand _, rfl, rfl, first _ _, second _ _, rfl,
      fun i _ _ => Buffer.read_writeAll_out (show i < s.msgLen ∨ s.msgLen + 2 ≤ i by omega),
      fun h => by simp [empty h, h, Buffer.read_writeAll], pkt nofun nofun nofun, operands,
      rxCsum nofun, header nofun, port⟩
  · exact ⟨_, exec_finish_noSpace noRoom, endsIn_endCommand _ _, keepsAllButStatus_endCommand _ _ _, rfl, rfl⟩

/-- Settles O44: the header unpacked is the one that the message starts with. -/
theorem hdrgetReadsTheHeader : Obligations.HdrgetReadsTheHeader := by
  refine ⟨rfl, fun s long => ?_, fun s short => ?_⟩
  · have got := exec_hdrget_long (s := s) long
    obtain ⟨magic, version, seq, cmd⟩ := Buffer.header_bytes (b := s.msg) rfl
    obtain ⟨msg, pkt, -, operands, sums, rxCsum, -, port⟩ := commandsWriteOnlyTheirColumns .hdrget s _ got
    exact ⟨_, got, endsWell_endCommand _, magic, version, seq, cmd, msg nofun nofun nofun, pkt nofun nofun nofun,
      operands, sums nofun nofun nofun nofun nofun, rxCsum nofun, port⟩
  · exact ⟨_, exec_hdrget_short short, endsIn_endCommand _ _, keepsAllButStatus_endCommand _ _ _, rfl, rfl⟩

theorem Buffer.slice_pair (b : Buffer) (n : Nat) : b.slice n (n + 2) = [b.read n, b.read (n + 1)] := by
  simp [Buffer.slice, List.range']

/-- A 16-bit value of two bytes, low byte first. -/
theorem unLE_pair_toNat (lo hi : Byte) : (unLE 16 [lo, hi]).toNat = lo.toNat + 256 * hi.toNat := by
  rw [unLE_toNat (by simp)]
  simp [leNat]

/-- Settles O45: the trailer is the last two bytes, and the sums are folded over what stands before it. -/
theorem trlgetReadsTheTrailer : Obligations.TrlgetReadsTheTrailer := by
  refine ⟨rfl, fun s long => ?_, fun s short => ?_⟩
  · have got := exec_trlget_long (s := s) long
    have trailer : s.msg.slice (s.msgLen - 2) s.msgLen = [s.msg.read (s.msgLen - 2), s.msg.read (s.msgLen - 1)] := by
      obtain ⟨n, hn⟩ : ∃ n, s.msgLen = n + 2 := ⟨s.msgLen - 2, by omega⟩
      rw [hn]
      exact Buffer.slice_pair s.msg n
    obtain ⟨msg, pkt, -, operands, -, -, header, port⟩ := commandsWriteOnlyTheirColumns .trlget s _ got
    refine ⟨_, got, endsWell_endCommand _, ?_, rfl, rfl, msg nofun nofun nofun, pkt nofun nofun nofun, operands,
      header nofun, port⟩
    exact (congrArg (BitVec.toNat <| unLE 16 ·) trailer).trans (unLE_pair_toNat _ _)
  · exact ⟨_, exec_trlget_short short, endsIn_endCommand _ _, keepsAllButStatus_endCommand _ _ _, rfl, rfl⟩

end Sys2Proof.Machine
end

section
/-! PROOF. The codec round trip (spec/42_codec.md R108): the script in its three parts, each run from any state, and
what `MSG` holds between them. -/

namespace Sys2Proof.Machine

variable {s : State} {b : Buffer} {rest : List BusEvent}

/-! ## What the parts hand on, as bytes -/

/-- Bytes written at the end of what a buffer holds up to there. -/
theorem Buffer.slice_writeAll_append (b : Buffer) (n : Nat) (bytes : List Byte) :
    (b.writeAll n bytes).slice 0 (n + bytes.length) = b.slice 0 n ++ bytes := by
  rw [Buffer.slice_append _ (Nat.zero_le n) (Nat.le_add_right _ _), Buffer.slice_writeAll]
  congr 1
  exact Buffer.slice_congr fun i _ inside => Buffer.read_writeAll_out (.inl inside)

/-- The two parts of a slice that is known as a concatenation. -/
theorem Buffer.slice_eq_append {n : Nat} {xs ys : List Byte} (whole : b.slice 0 n = xs ++ ys) :
    b.slice 0 xs.length = xs ∧ b.slice xs.length n = ys := by
  have len : n = xs.length + ys.length := by simpa using congrArg List.length whole
  rw [Buffer.slice_append b (Nat.zero_le xs.length) (by omega)] at whole
  exact List.append_inj whole (by simp)

/-- The trailer is read back as the checksum it was made of. -/
theorem unLE_sums (p : Byte × Byte) : unLE 16 [p.1, p.2] = csumOf p := by
  apply BitVec.eq_of_toNat_eq
  rw [unLE_pair_toNat, csumOf_toNat, Nat.add_comm]

/-- The script's Message, taken apart: the header, the payload, what the checksum is made of, and the checksum. -/
theorem State.msg_slices {h : Header} {payload : List Byte} (message : s.message = messageOf h payload) :
    s.msgLen = 19 + payload.length ∧ s.msg.slice 0 17 = packHdr h ∧ s.msg.slice 17 (17 + payload.length) = payload ∧
      s.msg.slice 0 (17 + payload.length) = packHdr h ++ payload ∧
      unLE 16 (s.msg.slice (17 + payload.length) (19 + payload.length)) = fl16 (packHdr h ++ payload) := by
  have len : s.msgLen = 19 + payload.length := by
    have lengths := congrArg List.length message
    simp only [State.message_length, messageOf, List.length_append, packHdr_length, List.length_cons,
      List.length_nil] at lengths
    omega
  have bodyLen : (packHdr h ++ payload).length = 17 + payload.length := by simp
  obtain ⟨body, trailer⟩ := Buffer.slice_eq_append message
  rw [bodyLen] at body trailer
  obtain ⟨header, data⟩ := Buffer.slice_eq_append body
  rw [packHdr_length] at header data
  exact ⟨len, header, data, body, by rw [← len, trailer, unLE_sums]; rfl⟩

/-! ## The three parts of the script -/

theorem loadEvents_length (buf : Buf) (i : Nat) (bytes : List Byte) :
    (loadEvents buf i bytes).length = bytes.length := by
  induction bytes generalizing i with
  | nil => rfl
  | cons b bs ih => exact congrArg Nat.succ (ih (i + 1))

/-- A payload written behind the first `n` bytes of `MSG`, and `MSG_LEN` set to its end (R103). -/
theorem runSteps_loadPayload {n : Nat} {payload : List Byte} (legal : s.cfg.legal = true)
    (fits : n + payload.length ≤ s.cfg.msgMax)
    (issued : s.events =
      loadEvents .msg n payload ++ writeRegEvent .msgLen (BitVec.ofNat 32 (n + payload.length)) :: rest) :
    ∃ t, runSteps (payload.length + 1) s = .next t ∧ t.events = rest ∧ t.message = s.msg.slice 0 n ++ payload ∧
      t.msgLen = n + payload.length ∧ t.cfg = s.cfg := by
  obtain ⟨r, loaded, -⟩ := runSteps_loadMsg legal fits issued
  refine runSteps_add_then loaded (runSteps_then (n := 0) (step_writeMsgLen rfl legal fits) ?_)
  exact ⟨_, rfl, rfl, Buffer.slice_writeAll_append s.msg n payload, rfl, rfl⟩

/-- The events of `buildScript`, the load taken apart from the commands before and after it. -/
theorem scriptEvents_buildScript (payload : List Byte) :
    scriptEvents (buildScript payload) = commandEvent (encode .hdrput).toNat :: (loadEvents .msg 17 payload ++
      [writeRegEvent .msgLen (BitVec.ofNat 32 (17 + payload.length)), commandEvent (encode .finish).toNat]) := rfl

/-- `HDRPUT`, the payload and `FINISH` leave the Message of the header and the payload (R103). -/
theorem runSteps_buildScript {payload : List Byte} (legal : s.cfg.legal = true)
    (fits : 19 + payload.length ≤ s.cfg.msgMax) (issued : s.events = scriptEvents (buildScript payload) ++ rest) :
    ∃ t, runSteps (scriptEvents (buildScript payload)).length s = .next t ∧ t.events = rest ∧
      t.message = messageOf s.outHeader payload ∧ t.cfg = s.cfg := by
  have steps : (scriptEvents (buildScript payload)).length = (payload.length + 1) + 1 + 1 := by
    simp [scriptEvents_buildScript, loadEvents_length]
  rw [steps]
  rw [scriptEvents_buildScript, List.cons_append, List.append_assoc] at issued
  obtain ⟨s₁, put, -, -, header, -, ⟨cfg₁, -⟩, events₁, -⟩ := exec_hdrput_header { s with events := _ }
  refine runSteps_then (step_issue issued put) ?_
  change s₁.cfg = s.cfg at cfg₁
  rw [← cfg₁] at legal fits
  obtain ⟨s₂, loaded, events₂, body, len₂, cfg₂⟩ :=
    runSteps_loadPayload (s := s₁.respond .okay) (n := 17) legal (show _ ≤ s₁.cfg.msgMax by omega) events₁
  refine runSteps_add_then (m := payload.length + 1) (n := 1) loaded ?_
  change s₂.cfg = s₁.cfg at cfg₂
  replace body : s₂.message = packHdr s.outHeader ++ payload := body.trans (congrArg (· ++ payload) header)
  rw [← cfg₂] at fits
  obtain ⟨t, finished, -, message, -, ⟨cfg, -⟩, events, -⟩ := exec_finish_message (s := { s₂ with events := rest })
    (show s₂.msgLen + 2 ≤ s₂.cfg.msgMax by omega)
  change t.message = s₂.message ++ [(flSums s₂.message).1, (flSums s₂.message).2] at message
  rw [body] at message
  exact runSteps_then (n := 0) (step_issue events₂ finished)
    ⟨_, rfl, events, message, cfg.trans (cfg₂.trans cfg₁)⟩

/-- Through the framer and back, or straight on: `MSG` holds the same Message (R108, second part). -/
theorem runSteps_framing {framing : List Stmt} (inside : s.msgLen ≤ s.cfg.msgMax)
    (which : framing = [] ∨ (s.cfg.sized = true ∧ framing = framingScript))
    (issued : s.events = scriptEvents framing ++ rest) :
    ∃ t, runSteps (scriptEvents framing).length s = .next t ∧ t.events = rest ∧ t.message = s.message := by
  obtain rfl | ⟨sized, rfl⟩ := which
  · exact ⟨s, rfl, issued, rfl⟩
  have room := cobsEnc_message_lt_of_sized sized inside
  obtain ⟨s₁, encoded, -, packet₁, len₁, -, -, ⟨cfg₁, -⟩, events₁, -⟩ := exec_encode_packet
    (s := { s with events := scriptEvents [.issue .term, .issue .strip, .issue .decode] ++ rest }) room.le
  obtain ⟨s₂, termed, -, packet₂, -, -, -, ⟨cfg₂, -⟩, events₂, -⟩ := exec_term_packet
    (s := { s₁.respond .okay with events := scriptEvents [.issue .strip, .issue .decode] ++ rest })
    (show s₁.pktLen < s₁.cfg.pktMax by rwa [len₁, cfg₁])
  obtain ⟨s₃, stripped, -, packet₃, -, -, ⟨cfg₃, -⟩, events₃, -⟩ := exec_strip_packet
    (s := { s₂.respond .okay with events := scriptEvents [.issue .decode] ++ rest }) packet₂
  have packet : s₃.packet = cobsEnc s.message := packet₃.trans packet₁
  have cfg : s₃.cfg = s.cfg := cfg₃.trans (cfg₂.trans cfg₁)
  have nonempty : 0 < s₃.pktLen := by
    rw [← State.packet_length, packet]
    exact List.length_pos_iff.2 (cobsEncFrom_ne_nil _ _)
  have decodes : cobsDec s₃.packet s₃.cfg.msgMax = .ok s.message := by
    rw [packet, cfg]
    exact cobsDec_cobsEnc ((State.message_length s).le.trans inside)
  obtain ⟨t, decoded, -, message, -, -, events, -⟩ :=
    exec_decode_message (s := { s₃.respond .okay with events := rest }) decodes nonempty
  exact runSteps_then (step_issue issued encoded) <| runSteps_then (step_issue events₁ termed) <|
    runSteps_then (step_issue events₂ stripped) <| runSteps_then (n := 0) (step_issue events₃ decoded)
    ⟨_, rfl, events, message⟩

/-- `HDRGET` and `TRLGET` of a Message give its header and its checksum, received and recomputed. -/
theorem runSteps_readBack {h : Header} {payload : List Byte} (message : s.message = messageOf h payload)
    (issued : s.events = scriptEvents [.issue .hdrget, .issue .trlget] ++ rest) :
    ∃ t, runSteps 2 s = .next t ∧ t.events = rest ∧ EndsWell t ∧
      (⟨t.hMagic, t.hVersion, t.hSeq, t.hCmd⟩ : Header) = h ∧ t.rxCsum = t.csum ∧
      t.csum = fl16 (packHdr h ++ payload) ∧ t.message = s.message := by
  obtain ⟨len, header, -, body, trailer⟩ := State.msg_slices message
  obtain ⟨s₁, got, -, fields₁, msg₁, len₁, -, -, -, events₁, -⟩ := exec_hdrget_header
    (s := { s with events := scriptEvents [.issue .trlget] ++ rest }) (show 19 ≤ s.msgLen by omega)
  change s₁.msgLen = s.msgLen at len₁
  change s₁.msg = s.msg at msg₁
  obtain ⟨t, checked, well, rxCsum, csum, msg, len₂, ⟨magic, version, seq, cmd⟩, -, events₂, -⟩ :=
    exec_trlget_trailer (s := { s₁.respond .okay with events := rest }) (show 19 ≤ s₁.msgLen by omega)
  refine runSteps_then (step_issue issued got) (runSteps_then (n := 0) (step_issue events₁ checked) ?_)
  have fields : (⟨t.hMagic, t.hVersion, t.hSeq, t.hCmd⟩ : Header) = h := by
    rw [magic, version, seq, cmd]
    exact fields₁.trans ((congrArg unpackHdr header).trans (unpackHdr_packHdr h))
  have bodyLen : s.msgLen - 2 = 17 + payload.length := by omega
  change t.rxCsum = unLE 16 (s₁.msg.slice (s₁.msgLen - 2) s₁.msgLen) at rxCsum
  change t.csum = fl16 (s₁.msg.slice 0 (s₁.msgLen - 2)) at csum
  rw [msg₁, len₁, bodyLen, len, trailer] at rxCsum
  rw [msg₁, len₁, bodyLen, body] at csum
  have same : t.message = s.message := by
    change t.msg = s₁.msg at msg
    change t.msgLen = s₁.msgLen at len₂
    simp only [State.message, msg, len₂, msg₁, len₁]
  exact ⟨_, rfl, events₂, well, fields, rxCsum.trans csum.symm, csum, same⟩

/-- Settles O55: the script is its three parts, and the Message that the first leaves is the one that the last reads. -/
theorem codecRoundTrip : Obligations.CodecRoundTrip := by
  intro s payload rest framing inv fits which issued
  simp only [codecScript, scriptEvents_append, List.append_assoc, List.length_append] at issued ⊢
  obtain ⟨s₁, built, events₁, message₁, cfg₁⟩ := runSteps_buildScript inv.cfgLegal fits issued
  obtain ⟨len₁, -⟩ := State.msg_slices message₁
  obtain ⟨s₂, framed, events₂, message₂⟩ :=
    runSteps_framing (by rw [len₁, cfg₁]; exact fits) (cfg₁ ▸ which) events₁
  obtain ⟨t, readBack, events, well, fields, rxCsum, csum, message⟩ :=
    runSteps_readBack (message₂.trans message₁) events₂
  obtain ⟨len, -, data, -⟩ := State.msg_slices (message.trans (message₂.trans message₁))
  obtain ⟨magic, version, seq, cmd⟩ := Header.mk.inj fields
  exact ⟨t, (runSteps_add built).trans ((runSteps_add framed).trans readBack), events, well, magic, version, seq, cmd,
    rxCsum, csum, len, data⟩

end Sys2Proof.Machine
end

section
/-! PROOF. Errors and `STATUS` (spec/60_exceptions.md R120 to R123): every command ends, in the outcome that the table
of R121 names; a failed command has done nothing or lost its destination; and no other bus access writes `STATUS`. -/

namespace Sys2Proof.Machine

variable {s t : State} {i : Instr}

/-! ## How a command ends (R120, R121) -/

/-- Each command ends by its row of R121's table: one case per condition, as `errorOf` asks them. -/
theorem exec_ends_in_errorOf (i : Instr) (s : State) :
    ∃ (u : State) (o : Option CmdError) (e : Bool), exec i s = .next (u.endCommand o e) ∧ errorOf i s = o := by
  cases i with
  | csclr => exact ⟨_, _, _, exec_csclr s, rfl⟩
  | csbyte b => exact ⟨_, _, _, exec_csbyte b s, rfl⟩
  | csmsg => exact ⟨_, _, _, exec_csmsg s, rfl⟩
  | hdrput => exact ⟨_, _, _, exec_hdrput s, rfl⟩
  | encode =>
    by_cases h : s.cfg.pktMax < (cobsEnc s.message).length
    · exact ⟨_, _, _, exec_encode_noSpace h, if_pos h⟩
    · exact ⟨_, _, _, exec_encode_fits (Nat.le_of_not_lt h), if_neg h⟩
  | term =>
    by_cases h : s.cfg.pktMax ≤ s.pktLen
    · exact ⟨_, _, _, exec_term_noSpace h, if_pos h⟩
    · exact ⟨_, _, _, exec_term_fits (Nat.lt_of_not_le h), if_neg h⟩
  | strip =>
    by_cases h : s.pktLen = 0 ∨ s.pkt.read (s.pktLen - 1) ≠ 0x00#8
    · exact ⟨_, _, _, exec_strip_noTerm h, if_pos h⟩
    · obtain ⟨nonempty, zero⟩ := not_or.1 h
      exact ⟨_, _, _, exec_strip_found (Nat.pos_of_ne_zero nonempty) (not_not.1 zero), if_neg h⟩
  | decode =>
    cases h : cobsDec s.packet s.cfg.msgMax with
    | ok d => exact ⟨_, _, _, exec_decode_ok h, by rw [errorOf, h]⟩
    | error e => exact ⟨_, _, _, exec_decode_error h, by rw [errorOf, h]⟩
  | finish =>
    by_cases h : s.cfg.msgMax < s.msgLen + 2
    · exact ⟨_, _, _, exec_finish_noSpace h, if_pos h⟩
    · exact ⟨_, _, _, exec_finish_fits (Nat.le_of_not_lt h), if_neg h⟩
  | hdrget =>
    by_cases h : s.msgLen < 19
    · exact ⟨_, _, _, exec_hdrget_short h, if_pos h⟩
    · exact ⟨_, _, _, exec_hdrget_long (Nat.le_of_not_lt h), if_neg h⟩
  | trlget =>
    by_cases h : s.msgLen < 19
    · exact ⟨_, _, _, exec_trlget_short h, if_pos h⟩
    · exact ⟨_, _, _, exec_trlget_long (Nat.le_of_not_lt h), if_neg h⟩

theorem exec_ecode (i : Instr) (s : State) : ∃ t, exec i s = .next t ∧ t.ecode = outcomeCode (errorOf i s) := by
  obtain ⟨u, o, e, ends, error⟩ := exec_ends_in_errorOf i s
  exact ⟨_, ends, by rw [error, State.endCommand_ecode]⟩

/-- A command with one error condition: its code where the condition holds, else 0. -/
theorem exec_ecode_ite {c : Prop} [Decidable c] (x : CmdError) (row : errorOf i s = if c then some x else none) :
    ∃ t, exec i s = .next t ∧ t.ecode = if c then x.code else 0#4 := by
  obtain ⟨t, ends, code⟩ := exec_ecode i s
  exact ⟨t, ends, by rw [code, row, apply_ite outcomeCode, outcomeCode_some, outcomeCode_none]⟩

theorem outcomeCode_eq_zero_or (o : Option CmdError) :
    outcomeCode o = 0#4 ∨ ∃ e : CmdError, outcomeCode o = e.code := by
  cases o with
  | none => exact .inl rfl
  | some e => exact .inr ⟨e, rfl⟩

theorem CmdError.code_ne_zero (e : CmdError) : e.code ≠ 0#4 := by cases e <;> decide

/-- Settles O8: a command ends by writing an outcome's code to `ECODE`, and the bus answers after that. -/
theorem everyCommandEndsInSuccessOrError : Obligations.EveryCommandEndsInSuccessOrError := by
  refine ⟨CmdError.code_ne_zero, fun i s => ?_, fun w s => ?_⟩
  · obtain ⟨t, ends, code⟩ := exec_ecode i s
    exact ⟨t, ends, code ▸ outcomeCode_eq_zero_or _⟩
  · obtain ⟨-, u, o, e, ends, -⟩ := runCommandWord_ends (BitVec.ofNat 32 w) s
    exact ⟨_, ends, by simpa using outcomeCode_eq_zero_or o, by rw [memWrite_cmd, ends]; rfl⟩

/-- Settles O46: the rows of `errorOf`, each by its condition; an illegal word never reaches a command. -/
theorem errorConditions : Obligations.ErrorConditions := by
  refine ⟨⟨rfl, rfl, rfl, rfl, rfl, rfl⟩, fun s => ⟨fun w illegal => ?_, exec_ecode_ite .noSpace rfl, ?_,
    exec_ecode_ite .noSpace rfl, exec_ecode_ite .noSpace rfl, exec_ecode_ite .short rfl, exec_ecode_ite .short rfl,
    exec_ecode_ite .noTerm rfl, exec_ecode .csclr s, fun b => exec_ecode (.csbyte b) s, exec_ecode .csmsg s,
    exec_ecode .hdrput s⟩⟩
  · exact ⟨_, runCommandWord_illegal illegal s, State.endCommand_ecode ..⟩
  · obtain ⟨t, ends, code⟩ := exec_ecode .decode s
    refine ⟨t, ends, code.trans ?_⟩
    rw [errorOf]
    cases cobsDec s.packet s.cfg.msgMax <;> rfl

/-! ## What an error leaves behind (R122) -/

/-- A command that ends with an error's code has only failed and written `STATUS`. -/
theorem failed_of_ecode_ne_zero (h : exec i s = .next t) (error : t.ecode ≠ 0#4) :
    ∃ u o e, t = u.endCommand o e ∧ Failed i s u := by
  obtain ⟨u, o, e, ends, -, -, failed⟩ := exec_ends_with i s
  obtain rfl := Host.Outcome.next.inj (h.symm.trans ends)
  cases o with
  | none => exact absurd (State.endCommand_ecode u none e) error
  | some x => exact ⟨u, some x, e, rfl, failed x rfl⟩

/-- Settles O47: a failed command has left everything or lost its destination buffer, the three cases of `Failed`. -/
theorem errorsLeaveBehind : Obligations.ErrorsLeaveBehind := by
  refine ⟨fun w s illegal => ?_, fun i s t h error => ?_⟩
  · exact ⟨_, runCommandWord_illegal illegal s, keepsAllButStatus_endCommand s _ _, rfl, rfl⟩
  · obtain ⟨u, o, e, rfl, failed⟩ := failed_of_ecode_ne_zero h error
    cases failed with
    | nothing _ _ encode decode =>
      exact ⟨fun _ _ => keepsAllButStatus_endCommand s o e, fun here => absurd here encode,
        fun here => absurd here decode, rfl, rfl⟩
    | losePkt =>
      obtain ⟨msg, operands, sums, rxCsum, header, port⟩ := frame_of_pktCommand (.inl rfl) h
      exact ⟨fun here => absurd rfl here,
        fun _ => ⟨rfl, Buffer.read_unspecified _, msg, operands, sums, rxCsum, header⟩, nofun, port⟩
    | loseMsg =>
      obtain ⟨pkt, operands, sums, rxCsum, header, port⟩ := frame_of_decode h
      exact ⟨fun _ here => absurd rfl here, nofun,
        fun _ => ⟨rfl, Buffer.read_unspecified _, pkt, operands, sums, rxCsum, header⟩, port⟩

/-! ## The writers of `STATUS` (R123) -/

/-- The whole of `STATUS` as the command `i` leaves it. -/
theorem exec_status (i : Instr) (s : State) :
    ∃ t, exec i s = .next t ∧ t.ecode = outcomeCode (errorOf i s) ∧
      (t.empty = true ↔ i = .decode ∧ s.pktLen = 0) ∧ t.statusReserved = 0#27 := by
  obtain ⟨t, h, code⟩ := exec_ecode i s
  obtain ⟨u, o, e, ends, -, empty, -⟩ := exec_ends_with i s
  obtain rfl := Host.Outcome.next.inj (h.symm.trans ends)
  exact ⟨_, h, code, by rwa [State.endCommand_empty], State.endCommand_statusReserved ..⟩

/-- No condition of R121 reads `STATUS`. -/
theorem errorOf_setStatus (i : Instr) (s : State) (v : Word) : errorOf i (s.setStatus v) = errorOf i s := by
  cases i <;> rfl

theorem memWriteReg_status (s : State) (r : Reg) (v : Word) : (memWriteReg s r v).status = s.status := by
  unfold memWriteReg
  split
  next t written =>
    rw [State.respond_status, writeReg_frame written]
  next => rfl

theorem memWriteWindow_status (s : State) (addr : Nat) (v : Byte) : (memWriteWindow s addr v).status = s.status := by
  unfold memWriteWindow
  split
  next b i _ => rw [State.respond_status, s.pokeByte_frame b i v]
  next => rfl

/-- A bus write to a register other than `CMD` or to a window, accepted or refused, keeps `STATUS`. -/
theorem memWrite_status {addr n v : Nat} (notCmd : ¬ (n = 4 ∧ addr = 0x00)) (h : memWrite s addr n v = .next t) :
    t.status = s.status := by
  unfold memWrite at h
  split at h
  next h4 =>
    split at h
    next cmd => exact absurd ⟨h4, regAt_some cmd⟩ notCmd
    next => cases h; exact memWriteReg_status ..
    next => cases h; rfl
  next =>
    split at h
    next => cases h; exact memWriteWindow_status ..
    next => cases h; rfl

/-- Settles O48: `exec_status` is of any state, whatever its `STATUS`, and no other write reaches `STATUS`. -/
theorem onlyCommandsWriteStatus : Obligations.OnlyCommandsWriteStatus := by
  refine ⟨fun w s old => ?_, fun s t e rest issued notCmd notReset h => ?_⟩
  · cases decoded : decodeWord w with
    | ok i =>
      obtain ⟨t, ends, code, empty, reserved⟩ := exec_status i (s.setStatus old)
      refine ⟨t, (runCommandWord_ok decoded _).trans ends, ?_, ?_, reserved⟩
      · simp only [code, errorOf_setStatus, wordErrorOf, decoded]
        cases errorOf i s <;> rfl
      · rw [empty, Except.ok.injEq, State.setStatus_pktLen]
    | error x =>
      have illegal (i : Instr) : decodeWord w ≠ .ok i := by rw [decoded]; nofun
      refine ⟨_, runCommandWord_illegal illegal _, ?_, ?_, State.endCommand_statusReserved ..⟩
      · rw [State.endCommand_ecode, wordErrorOf, decoded]; rfl
      · rw [State.endCommand_empty]; simp
  · rw [step_event issued] at h
    cases e with
    | read addr n => cases h; rfl
    | write addr n v => 
      have other : ¬ (n = 4 ∧ addr = 0x00) := by rintro ⟨rfl, rfl⟩; exact notCmd v rfl
      exact memWrite_status (s := { s with events := rest }) other h
    | externalReset => exact absurd rfl notReset

/-! ## Every event is taken and answered -/

theorem AccessEffect.keeps_events (h : AccessEffect s t) : t.events = s.events := by
  cases h with
  | answered => rfl
  | command _ _ _ _ _ effect => exact effect.keeps_events
  | register _ _ _ _ written => rw [State.respond_events, writeReg_frame written]
  | window _ b i v => rw [State.respond_events, s.pokeByte_frame b i v]

theorem AccessEffect.leaves_response (h : AccessEffect s t) : ∃ r, t.response = some r := by
  cases h <;> exact ⟨_, rfl⟩

theorem runEvent_total (s : State) (e : BusEvent) : ∃ t, runEvent s e = .next t := by
  cases e with
  | read => exact ⟨_, rfl⟩
  | write addr n v =>
    obtain ⟨t, written, -⟩ := memWrite_effect s addr n v
    exact ⟨t, written⟩
  | externalReset => exact ⟨_, rfl⟩

/-- Settles O7: a step takes the oldest event, which is a bus access or the reset, by `step_cases`. -/
theorem everyEventIsAnswered : Obligations.EveryEventIsAnswered := by
  intro s e rest issued
  obtain ⟨t, h⟩ := runEvent_total { s with events := rest } e
  rw [← step_event issued] at h
  refine ⟨t, h, ?_⟩
  obtain ⟨idle, -⟩ | ⟨e', rest', issued', done⟩ := step_cases h
  · rw [issued] at idle; cases idle
  · obtain ⟨rfl, rfl⟩ := List.cons.inj (issued.symm.trans issued')
    obtain ⟨-, access⟩ | ⟨isReset, rfl⟩ := done
    · exact ⟨access.keeps_events, fun _ => access.leaves_response⟩
    · exact ⟨rfl, fun notReset => absurd isReset notReset⟩

end Sys2Proof.Machine
end

section
/-! PROOF. Reset and the host's sequences (spec/70_reset_and_hazards.md): the external reset (R140), a terminator that
was not stripped (R146), the transmit sequence and the reads it ends with (R143), and the receive sequence (R144). -/

namespace Sys2Proof.Machine

variable {s : State} {rest : List BusEvent} {m : List Byte}

/-! ## The external reset (R140) -/

/-- Settles O14: the step is the reset of the state with the event taken, whose every field `resetWith` gives. -/
theorem externalResetClearsRegisters : Obligations.ExternalResetClearsRegisters := fun _ _ issued =>
  ⟨_, step_event issued, rfl, rfl, rfl, rfl, rfl, rfl, rfl, rfl, rfl, rfl, rfl, rfl, rfl, rfl, fun _ => rfl,
    fun _ => rfl⟩

/-! ## A terminator left in place (R146) -/

/-- The last record of an encoding is not full, so with more input after it its zero is put back, and the byte after it
stands where a length byte is expected. -/
theorem cobsDec_cobsEncFrom_term {cap : Nat} {run bytes : List Byte} (short : run.length < 254)
    (room : run.length + bytes.length < cap) :
    cobsDec (cobsEncFrom run bytes ++ [termByte]) cap = .error .zeroCode := by
  fun_induction cobsEncFrom run bytes generalizing cap with
  | case1 run =>
    rw [cobsDec_runRecord_append_zero short (List.cons_ne_nil _ _) room]
    rfl
  | case2 run rest ih =>
    rw [List.length_cons] at room
    rw [List.append_assoc, cobsDec_runRecord_append_zero short (by simp) (by omega), ih (by simp) (by simp; omega)]
    rfl
  | case3 run b rest _ full ih =>
    rw [List.length_cons] at room
    have length : (run ++ [b]).length = 254 := List.length_append.trans full
    rw [List.append_assoc, cobsDec_runRecord_append_plain length.le (by simp; omega) (.inl length),
      ih (by simp) (by simp; omega)]
    rfl
  | case4 run b rest _ notFull ih =>
    have length : (run ++ [b]).length = run.length + 1 := List.length_append
    rw [runMax] at notFull
    rw [List.length_cons] at room
    exact ih (by omega) (by omega)

/-- Settles O40: the scan starts with an empty open run. -/
theorem unstrippedTerminatorIsRefused : Obligations.UnstrippedTerminatorIsRefused := fun _ _ room =>
  cobsDec_cobsEncFrom_term (by simp) (by simpa using room)

/-! ## Transmit (R143) -/

/-- The transmit sequence is the operands, the Message built, and the Message framed. -/
theorem transmitScript_eq (seq : DWord) (cmd : Byte) (payload : List Byte) :
    transmitScript seq cmd payload =
      [.wr64Seq seq, .wr .command (cmd.zeroExtend 32)] ++ (buildScript payload ++ [.issue .encode, .issue .term]) := rfl

/-- The operands of a request are set, and nothing else of the block changes. -/
theorem runSteps_operands {seq : DWord} {cmd : Byte}
    (issued : s.events = scriptEvents [.wr64Seq seq, .wr .command (cmd.zeroExtend 32)] ++ rest) :
    runSteps 3 s = .next { s with seq := seq, command := cmd, events := rest, response := some .okay } := by
  rw [runSteps_add (m := 2) (n := 1) (runSteps_writeSeq issued)]
  exact runSteps_succ (n := 0) (step_writeCommand rfl)

/-- `ENCODE` and `TERM` leave the Packet of the message, if `PKT` has room for it. -/
theorem runSteps_encode_term (room : (cobsEnc s.message).length < s.cfg.pktMax)
    (issued : s.events = scriptEvents [.issue .encode, .issue .term] ++ rest) :
    ∃ t, runSteps 2 s = .next t ∧ t.events = rest ∧ EndsWell t ∧ t.response = some .okay ∧
      t.packet = packetOf s.message := by
  obtain ⟨s₁, encoded, -, packet₁, len₁, -, -, ⟨cfg₁, -⟩, events₁, -⟩ := exec_encode_packet
    (s := { s with events := scriptEvents [.issue .term] ++ rest }) room.le
  obtain ⟨t, termed, well, packet, -, -, -, -, events, -⟩ := exec_term_packet
    (s := { s₁.respond .okay with events := rest }) (show s₁.pktLen < s₁.cfg.pktMax by rwa [len₁, cfg₁])
  exact runSteps_then (step_issue issued encoded) <| runSteps_then (n := 0) (step_issue events₁ termed)
    ⟨_, rfl, events, well, rfl, packet.trans (congrArg (· ++ [termByte]) packet₁)⟩

/-- Settles O53: every byte and operand that the Message is made of is written by the sequence itself, and a sized `PKT`
holds its Packet. -/
theorem transmitBuildsTheRequestPacket : Obligations.TransmitBuildsTheRequestPacket := by
  intro s seq cmd payload rest inv sized fits issued
  simp only [transmitScript_eq, scriptEvents_append, List.append_assoc, List.length_append] at issued ⊢
  refine runSteps_add_then (runSteps_operands issued) ?_
  obtain ⟨s₁, built, events₁, message₁, cfg₁⟩ := runSteps_buildScript
    (s := { s with seq := seq, command := cmd, events := _, response := _ }) inv.cfgLegal fits rfl
  obtain ⟨len₁, -⟩ := State.msg_slices message₁
  have room : (cobsEnc s₁.message).length < s₁.cfg.pktMax :=
    cobsEnc_message_lt_of_sized (cfg₁ ▸ sized) (by rw [len₁, cfg₁]; exact fits)
  obtain ⟨t, framed, events, well, response, packet⟩ := runSteps_encode_term room events₁
  exact ⟨t, (runSteps_add built).trans framed, events, well, response, packet.trans (congrArg packetOf message₁)⟩

/-! ## Reading the Packet out (R143) -/

/-- What the reads that end R143 are answered with, in order: the length, then the bytes. -/
def readPacketAnswer (s : State) : Nat → Response
  | 0 => .okayWord (BitVec.ofNat 32 s.pktLen)
  | i + 1 => .okayByte (s.pkt.read i)

theorem scriptEvents_readPacket (n : Nat) :
    scriptEvents (readPacket n) = readRegEvent .pktLen :: (List.range' 0 n).map (readByteEvent .pkt) := by
  simp only [scriptEvents, readPacket, List.flatMap_cons, List.flatMap_map, stmtEvents, ← List.range_eq_range',
    List.map_eq_flatMap (f := readByteEvent .pkt), List.singleton_append]

/-- After the length and `k` bytes have been read, the remaining bytes' reads are still issued, the last answer stands,
and the block is as it was. -/
theorem runSteps_readPacket (legal : s.cfg.legal = true) (inside : s.pktLen ≤ s.cfg.pktMax)
    (issued : s.events = scriptEvents (readPacket s.pktLen) ++ rest) {k : Nat} (hk : k ≤ s.pktLen) :
    runSteps (k + 1) s = .next { s with
      events := (List.range' k (s.pktLen - k)).map (readByteEvent .pkt) ++ rest
      response := some (readPacketAnswer s k) } := by
  induction k with
  | zero =>
    rw [scriptEvents_readPacket] at issued
    exact runSteps_succ (n := 0) (step_readReg issued rfl)
  | succ k ih =>
    obtain ⟨left, hleft⟩ : ∃ left, s.pktLen - k = left + 1 := ⟨s.pktLen - k - 1, by omega⟩
    have next : s.pktLen - (k + 1) = left := by omega
    rw [runSteps_add (ih (by omega)), hleft, next]
    exact runSteps_succ (n := 0) (step_readByte (b := .pkt) rfl legal (show k < s.cfg.pktMax by omega))

/-- Settles O57: the length is answered first, byte `i` after `i + 1` others, and no read is left at the end. -/
theorem readingThePacketOut : Obligations.ReadingThePacketOut := by
  intro s rest legal inside issued
  have read {k : Nat} := runSteps_readPacket legal inside issued (k := k)
  exact ⟨⟨_, read (Nat.zero_le _), rfl⟩, fun i hi => ⟨_, read hi, rfl⟩,
    ⟨_, read (Nat.le_refl _), by simp, keepsBlock_port s _ _⟩⟩

/-! ## Receive (R144) -/

theorem scriptEvents_receiveScript (packet : List Byte) :
    scriptEvents (receiveScript packet) =
      stmtEvents (.ldpkt packet) ++ scriptEvents [.issue .strip, .issue .decode, .rd .status] := rfl

/-- A Message received: the terminator is taken off, and the frame decodes to the Message. -/
theorem runSteps_receiveScript (legal : s.cfg.legal = true) (fitsMsg : m.length ≤ s.cfg.msgMax)
    (fitsPkt : (packetOf m).length ≤ s.cfg.pktMax)
    (issued : s.events = scriptEvents (receiveScript (packetOf m)) ++ rest) :
    ∃ t, runSteps (scriptEvents (receiveScript (packetOf m))).length s = .next t ∧ t.events = rest ∧
      t.message = m := by
  have steps : (scriptEvents (receiveScript (packetOf m))).length = (packetOf m).length + 1 + 3 := by
    simp [scriptEvents, receiveScript, stmtEvents, loadEvents_length]
  rw [steps]
  rw [scriptEvents_receiveScript, List.append_assoc] at issued
  refine runSteps_add_then (n := 3) (runSteps_ldpkt (bytes := packetOf m) legal fitsPkt issued) ?_
  obtain ⟨s₁, stripped, -, packet₁, -, -, ⟨cfg₁, -⟩, events₁, -⟩ := exec_strip_packet (p := cobsEnc m)
    (s := { s with
      pkt := s.pkt.writeAll 0 (packetOf m), pktLen := (packetOf m).length
      events := scriptEvents [.issue .decode, .rd .status] ++ rest, response := some .okay })
    (Buffer.slice_writeAll_zero s.pkt (packetOf m))
  have nonempty : 0 < s₁.pktLen := by
    rw [← State.packet_length, packet₁]
    exact List.length_pos_iff.2 (cobsEncFrom_ne_nil _ _)
  have decodes : cobsDec s₁.packet s₁.cfg.msgMax = .ok m := by
    rw [packet₁, cfg₁]
    exact cobsDec_cobsEnc fitsMsg
  obtain ⟨s₂, decoded, -, message, -, -, events₂, -⟩ := exec_decode_message
    (s := { s₁.respond .okay with events := scriptEvents [.rd .status] ++ rest }) decodes nonempty
  exact runSteps_then (step_issue rfl stripped) <| runSteps_then (step_issue events₁ decoded) <|
    runSteps_then (n := 0) (step_readReg events₂ rfl) ⟨_, rfl, rfl, message⟩

/-- A message cut in two: what `MSG` holds before and after the cut. -/
theorem State.msg_slice_take_drop {k : Nat} (hk : k ≤ s.msgLen) :
    s.msg.slice 0 k = s.message.take k ∧ s.msg.slice k s.msgLen = s.message.drop k := by
  have cut := Buffer.slice_eq_append (List.take_append_drop k s.message).symm
  rwa [List.length_take, State.message_length, Nat.min_eq_left hk] at cut

/-- `TRLGET` and `HDRGET` of a message give its header and both its checksums, and keep it. -/
theorem runSteps_openMessageScript (long : 19 ≤ s.msgLen)
    (issued : s.events = scriptEvents openMessageScript ++ rest) :
    ∃ t, runSteps 2 s = .next t ∧ t.events = rest ∧ EndsWell t ∧ t.message = s.message ∧
      (⟨t.hMagic, t.hVersion, t.hSeq, t.hCmd⟩ : Header) = unpackHdr (s.message.take 17) ∧
      t.rxCsum.toNat = leNat (s.message.drop (s.msgLen - 2)) ∧ t.csum = fl16 (s.message.take (s.msgLen - 2)) := by
  obtain ⟨s₁, checked, -, rxCsum₁, csum₁, msg₁, len₁, -, -, events₁, -⟩ := exec_trlget_trailer
    (s := { s with events := scriptEvents [.issue .hdrget] ++ rest }) long
  obtain ⟨t, got, well, fields, msg, len, rxCsum, csum, -, events, -⟩ := exec_hdrget_header
    (s := { s₁.respond .okay with events := rest }) (len₁ ▸ long)
  refine runSteps_then (step_issue issued checked) (runSteps_then (n := 0) (step_issue events₁ got)
    ⟨_, rfl, events, well, ?_, ?_, ?_, ?_⟩)
  · show t.msg.slice 0 t.msgLen = s.msg.slice 0 s.msgLen
    rw [msg, len, State.respond_msg, State.respond_msgLen, msg₁, len₁]
  · rw [← (State.msg_slice_take_drop (by omega)).1]
    exact fields.trans (congrArg (unpackHdr <| Buffer.slice · 0 17) msg₁)
  · have two : s.msgLen - (s.msgLen - 2) = 2 := by omega
    rw [← (State.msg_slice_take_drop (by omega)).2, ← unLE_toNat (w := 16) (by simp [two])]
    exact congrArg BitVec.toNat (rxCsum.trans rxCsum₁)
  · rw [← (State.msg_slice_take_drop (by omega)).1]
    exact csum.trans csum₁

/-- Settles O54: the Message received is the one whose header and checksums are read. -/
theorem receiveRecoversTheMessage : Obligations.ReceiveRecoversTheMessage := by
  intro s m rest inv long fitsMsg fitsPkt issued
  simp only [scriptEvents_append, List.append_assoc, List.length_append] at issued ⊢
  obtain ⟨s₁, received, events₁, rfl⟩ := runSteps_receiveScript inv.cfgLegal fitsMsg fitsPkt issued
  rw [State.message_length] at long ⊢
  exact runSteps_add_then received (runSteps_openMessageScript long events₁)

end Sys2Proof.Machine
end

section
/-! PROOF. Sample words (spec/95_test_vectors.md section 5.1): why the decoder rejects a word, one lemma for each reason in
the order it looks for them (R50), and the words written out there. -/

namespace Sys2Proof.Machine

variable {w : Word} {i : Instr}

theorem decodeWord_zeroFieldSet (zero : (commandFields w).zero ≠ 0#16) :
    decodeWord w = .error .zeroFieldSet := if_pos zero

theorem decodeWord_undefinedOp (zero : (commandFields w).zero = 0#16) (notCsbyte : (commandFields w).op ≠ 0x02#8)
    (undefined : plainCommand (commandFields w).op = none) : decodeWord w = .error .undefinedOp := by
  rw [decodeWord, decodeFields, if_neg (not_not.2 zero), if_neg notCsbyte, undefined]

theorem decodeWord_strayImmediate (zero : (commandFields w).zero = 0#16)
    (notCsbyte : (commandFields w).op ≠ 0x02#8) (plain : plainCommand (commandFields w).op = some i)
    (imm8 : (commandFields w).imm8 ≠ 0#8) : decodeWord w = .error .strayImmediate := by
  rw [decodeWord, decodeFields, if_neg (not_not.2 zero), if_neg notCsbyte, plain]
  exact if_pos imm8

/-- Settles O3: the six commands are those whose encodings the words are, and each illegal word meets the condition it is
rejected for. -/
theorem sampleWordsDecode : Obligations.SampleWordsDecode :=
  ⟨decodeWord_eq_ok_iff.2 rfl, decodeWord_eq_ok_iff.2 rfl, decodeWord_eq_ok_iff.2 rfl, decodeWord_eq_ok_iff.2 rfl,
    decodeWord_eq_ok_iff.2 rfl, decodeWord_eq_ok_iff.2 rfl, decodeWord_undefinedOp rfl (by decide) rfl,
    decodeWord_strayImmediate rfl (by decide) rfl (by decide), decodeWord_zeroFieldSet (by decide)⟩

end Sys2Proof.Machine
end
